-- ==== Sys2Proof/Word.lean ====
section
/-! DEFINITION. The widths of the FCVT core (spec/00_scope.md R7, spec/30_encoding.md R61 and R64). Bit 0 is the
least significant bit of every value (R9); every value is an unsigned bit pattern (R11), and a float and its
bit pattern are the same bits (R12). -/

namespace Sys2Proof

/-- A binary16 pattern (R14). -/
abbrev Half := BitVec 16

/-- A binary32 pattern (R15). -/
abbrev Single := BitVec 32

/-- A binary64 pattern (R16). -/
abbrev Double := BitVec 64

/-- The operand port `req_a` (R32): the widest input any operation has. -/
abbrev OperandWord := BitVec 128

/-- The result port `rsp_r` (R32): the widest output any operation has. -/
abbrev ResultWord := BitVec 64

/-- The op code port `req_op` (R32). -/
abbrev OpCode := BitVec 4

/-- The status port `rsp_status` (R32). -/
abbrev StatusWord := BitVec 2

/-- A request word `W = op ‖ a` (R61). -/
abbrev RequestWord := BitVec 132

/-- The key of the lookup tables, sign bit ‖ exponent byte (R47). -/
abbrev TableKey := BitVec 9

/-- An entry of BASE (R24). -/
abbrev BaseWord := BitVec 16

/-- An entry of SHIFT (R25). -/
abbrev ShiftWord := BitVec 8

end Sys2Proof
end

