-- ==== Sys2Proof/Machine/Bits.lean ====
section
/-! DEFINITION. The arithmetic primitives of the spec's pseudocode (spec/00_scope.md R9, R10), on unbounded non-negative
integers as R10 says. -/

namespace Sys2Proof.Machine

/-- `v[hi:lo]` (R9): the field from bit hi down to bit lo inclusive. -/
def field (v hi lo : Nat) : Nat := (v >>> lo) % 2 ^ (hi - lo + 1)

/-- `bitlen(x)` (R10): the position of the highest set bit plus 1, and 0 for 0. -/
def bitlen (x : Nat) : Nat := if x = 0 then 0 else Nat.log2 x + 1

/-- The position of the lowest set bit among the low `fuel` bits of x, and `fuel` when none of them is set. -/
def lowestSet : Nat → Nat → Nat
  | 0, _ => 0
  | fuel + 1, x => if x % 2 = 1 then 0 else lowestSet fuel (x / 2) + 1

/-- `ctz(x)` (R10), for an x of at most 128 bits. R10 gives it for x ≠ 0 only, and no rule takes it of 0. -/
def ctz (x : Nat) : Nat := lowestSet 128 x

/-- `neg_128(x) = (2^128 - x) mod 2^128` (R10). -/
def neg128 (x : Nat) : Nat := (2 ^ 128 - x) % 2 ^ 128

end Sys2Proof.Machine
end

