-- ==== Sys2Proof/Syntax.lean ====
section
/-! DEFINITION. The operations of spec/opcode_table.json, and what a requester presents: requests (spec/30_encoding.md R61)
and the lines of its program (R70). -/

namespace Sys2Proof

/-- The nine operations (R65), one constructor per row of spec/opcode_table.json, in the table's order. Each carries the
WHOLE 128-bit operand `a` of its request word (R61): the slice it reads is taken by its meaning (R62). -/
inductive Instr where
  | extendhfsf2 (a : OperandWord)
  | extendsfdf2 (a : OperandWord)
  | truncsfhf2 (a : OperandWord)
  | truncdfhf2 (a : OperandWord)
  | truncdfsf2 (a : OperandWord)
  | floattisf (a : OperandWord)
  | floattidf (a : OperandWord)
  | floatuntisf (a : OperandWord)
  | floatuntidf (a : OperandWord)
  deriving DecidableEq, Repr

/-- A request `{op, a}` (R61; an element of INFLIGHT, R31). Any of the 16 op codes may stand in it (R185). -/
structure Request where
  /-- `req_op` -/
  op : OpCode
  /-- `req_a` -/
  a : OperandWord
  deriving DecidableEq, Repr

/-- The nine mnemonics of the assembly notation of R70 (R71: each denotes exactly one op code). -/
inductive Mnemonic where
  | extendhfsf2
  | extendsfdf2
  | truncsfhf2
  | truncdfhf2
  | truncdfsf2
  | floattisf
  | floattidf
  | floatuntisf
  | floatuntidf
  deriving DecidableEq, Repr

/-- The operand of a program line (R70). -/
inductive LineOperand where
  /-- A literal, zero-extended into `a`. -/
  | lit (a : OperandWord)
  /-- `@k`: the result slice of the k-th earlier response of the same program, counted from 1. The host puts it in
  before it presents the request. -/
  | result (k : Nat)
  deriving DecidableEq, Repr

/-- One line of a requester's program (R70). -/
inductive HostLine where
  /-- `<mnemonic> <operand>` -/
  | named (m : Mnemonic) (o : LineOperand)
  /-- `.req <op>, <a>`: any op code, a reserved one included. -/
  | raw (op : OpCode) (o : LineOperand)
  deriving DecidableEq, Repr

end Sys2Proof
end

