-- ==== Sys2Proof/Decode.lean ====
section
/-! DEFINITION. Request words and op codes (spec/30_encoding.md R61, R65 to R68): the decoder, total over the 16 op codes and
rejecting the reserved ones by name, then the encoder. The unit has one request format of one length (R67) and no bytes
(spec/20_memory.md R48), so what is decoded is a whole 132-bit request word. -/

namespace Sys2Proof

/-- Why a request word holds no operation. -/
inductive DecodeError where
  /-- The op code is one of the reserved codes 0x9 to 0xF (R66). -/
  | reservedOp (op : OpCode)
  deriving DecidableEq, Repr

/-- The request word `W = op ‖ a` (R61). -/
def Request.word (q : Request) : RequestWord := q.op ++ q.a

/-- The request a word spells: op = W[131:128], a = W[127:0] (R61). -/
def Request.ofWord (w : RequestWord) : Request :=
  { op := w.extractLsb' 128 4, a := w.extractLsb' 0 128 }

/-- The op-code map (R65). It looks at no field but `op` and at no state. -/
def decodeRequest (q : Request) : Except DecodeError Instr :=
  match q.op.toNat with
  | 0x0 => .ok (.extendhfsf2 q.a)
  | 0x1 => .ok (.extendsfdf2 q.a)
  | 0x2 => .ok (.truncsfhf2 q.a)
  | 0x3 => .ok (.truncdfhf2 q.a)
  | 0x4 => .ok (.truncdfsf2 q.a)
  | 0x5 => .ok (.floattisf q.a)
  | 0x6 => .ok (.floattidf q.a)
  | 0x7 => .ok (.floatuntisf q.a)
  | 0x8 => .ok (.floatuntidf q.a)
  | _ => .error (.reservedOp q.op)

/-- Decoding a request word. -/
def decode (w : RequestWord) : Except DecodeError Instr := decodeRequest (Request.ofWord w)

/-- The op code of an operation (R65). -/
def Instr.opCode : Instr → OpCode
  | .extendhfsf2 _ => 0x0#4
  | .extendsfdf2 _ => 0x1#4
  | .truncsfhf2 _ => 0x2#4
  | .truncdfhf2 _ => 0x3#4
  | .truncdfsf2 _ => 0x4#4
  | .floattisf _ => 0x5#4
  | .floattidf _ => 0x6#4
  | .floatuntisf _ => 0x7#4
  | .floatuntidf _ => 0x8#4

/-- The operand field of an operation's request word. -/
def Instr.operand : Instr → OperandWord
  | .extendhfsf2 a => a
  | .extendsfdf2 a => a
  | .truncsfhf2 a => a
  | .truncdfhf2 a => a
  | .truncdfsf2 a => a
  | .floattisf a => a
  | .floattidf a => a
  | .floatuntisf a => a
  | .floatuntidf a => a

/-- The request that carries an operation. -/
def Instr.request (i : Instr) : Request := { op := i.opCode, a := i.operand }

/-- The encoder: the request word of an operation (R61, R65). -/
def encode (i : Instr) : RequestWord := i.request.word

/-- The op code a mnemonic denotes (R65, R71). -/
def Mnemonic.opCode : Mnemonic → OpCode
  | .extendhfsf2 => 0x0#4
  | .extendsfdf2 => 0x1#4
  | .truncsfhf2 => 0x2#4
  | .truncdfhf2 => 0x3#4
  | .truncdfsf2 => 0x4#4
  | .floattisf => 0x5#4
  | .floattidf => 0x6#4
  | .floatuntisf => 0x7#4
  | .floatuntidf => 0x8#4

/-- The op code a program line presents (R70). -/
def HostLine.opCode : HostLine → OpCode
  | .named m _ => m.opCode
  | .raw op _ => op

/-- The operand of a program line (R70). -/
def HostLine.operand : HostLine → LineOperand
  | .named _ o => o
  | .raw _ o => o

/-- The request whose bits are `w`, numbered as the opcode table numbers them, every bit from `nbits` up being 0. -/
def requestOfTableWord (nbits w : Nat) : Request :=
  Request.ofWord (BitVec.ofNat 132 (w % 2 ^ nbits))

/-- What the decoder reads from the word of an opcode-table row: none for a reserved op code, and none where a bit above the
132 bits of a request word is set, since no longer request exists (R67). -/
def decodeTableWord (nbits w : Nat) : Option Instr :=
  if w % 2 ^ nbits < 2 ^ 132 then
    match decodeRequest (requestOfTableWord nbits w) with
    | .ok i => some i
    | .error _ => none
  else none

end Sys2Proof
end

