-- ==== Sys2Proof/Config.lean ====
section
/-! DEFINITION. What the spec fixes for every FCVT core (spec/00_scope.md R7), and the one parameter it leaves to each
core: MAX_OUTSTANDING (R8), an uninterpreted constant of which only the bound `1 ≤ MAX_OUTSTANDING` is known. The two other
parameters of R8, LATENCY and INIT_STEPS, are numbers of steps: they are how many entries of `State.schedule` pass
before the response, and before the initialisation step (notes/assumptions/3.md). -/

namespace Sys2Proof

/-- Entries per lookup table (R7). -/
abbrev Config.tableEntries : Nat := 512

/-- One less than MAX_OUTSTANDING. No body: R8 states no value for it (a parameter, OPEN in decision D15). -/
opaque Config.spareOutstanding : Nat

/-- MAX_OUTSTANDING (R8): the largest number of accepted requests without a response, an integer that is at least 1. -/
def Config.maxOutstanding : Nat := Config.spareOutstanding + 1

/-- A float format by the widths of its exponent and mantissa fields and its bias. -/
structure Format where
  /-- width of the biased exponent field -/
  E : Nat
  /-- width of the mantissa field -/
  M : Nat
  /-- bias -/
  B : Nat
  deriving DecidableEq, Repr

/-- binary16 (R14). -/
def Format.half : Format := { E := 5, M := 10, B := 15 }

/-- binary32 (R15; M = 23, B = 127 in R7). -/
def Format.single : Format := { E := 8, M := 23, B := 127 }

/-- binary64 (R16; M = 52, B = 1023 in R7). -/
def Format.double : Format := { E := 11, M := 52, B := 1023 }

end Sys2Proof
end

