-- ==== Sys2Proof/Machine/State.lean ====
section
/-! DEFINITION. The state of the machine and the state right after reset. The unit's architectural state is
{TBL_READY, BASE, SHIFT, INFLIGHT} (spec/10_state.md R33). The other fields are the model's own: the response port (R32), the
observation of the run (spec/70_reset_and_hazards.md R190), and the environment as plain data, that is, the program the
requester presents and the schedule that says which agent moves at each step. -/

namespace Sys2Proof.Machine

/-- A response (spec/30_encoding.md R64). A result value exists with status OK only, so the other two carry none. -/
inductive Response where
  /-- Status 0, OK: `r` is the whole of `rsp_r`. -/
  | ok (r : ResultWord)
  /-- Status 1, UNSUPPORTED (spec/60_exceptions.md R161). -/
  | unsupported
  /-- Status 2, ILLEGAL_OP (R162). -/
  | illegalOp
  deriving DecidableEq, Repr

/-- Who moves in a step in which `rst` is 0: any enabled step may be taken next (spec/70_reset_and_hazards.md, section 1). -/
inductive Turn where
  /-- the unit's init agent (R182) -/
  | init
  /-- the requester and the unit together (R183) -/
  | accept
  /-- the unit (R184) -/
  | respond
  deriving DecidableEq, Repr

/-- One step of the schedule: the `rst` port in that step, and whose turn it is when `rst` is 0. -/
structure Slot where
  rst : Bool
  turn : Turn
  deriving DecidableEq, Repr

/-- The state. -/
structure State where
  /-- TBL_READY, 1 bit (R29). -/
  tblReady : Bool
  /-- BASE[0..511], 16 bits each (R24); `none` is "holds no value" (R30). -/
  base : Vector (Option BaseWord) Config.tableEntries
  /-- SHIFT[0..511], 8 bits each (R25); `none` is "holds no value" (R30). -/
  shift : Vector (Option ShiftWord) Config.tableEntries
  /-- INFLIGHT, oldest first (R31). -/
  inflight : List Request
  /-- The response port in the step that led here (R32): `none` is `rsp_valid = 0`. -/
  rsp : Option Response
  /-- The observation (R190): the answered requests with their responses, in the order of delivery. -/
  delivered : List (Request × Response)
  /-- The requester's program: the lines not accepted yet. The first one is on the request port. -/
  program : List HostLine
  /-- The steps to come, as the environment and the agents take them; empty: see `Machine.fairTurn`. -/
  schedule : List Slot
  deriving DecidableEq, Repr

/-- Reasons to stop with a fault. Both are safe: the spec says that no value stands there. -/
inductive Fault where
  /-- Raised by truncsfhf2, through the table read: the entry holds no value (R30, decision D26: a model fault). No state
  that meets `Machine.MachineInv` and accepts requests reaches it. -/
  | tableEntryUnset (key : TableKey)
  /-- Raised by the acceptance step, for the requester: its line names `@k`, and response k has no result value, so that
  reading `rsp_r` is a model fault (spec/93_implementation_defined.md U2). -/
  | resultHasNoValue (k : Nat)
  deriving DecidableEq, Repr

/-- Reasons to refuse an instruction. -/
inductive Refusal where
  /-- No meaning has been written for the instruction (safe). No arm of `exec` answers it in this model. -/
  | notModelled (mnemonic : String)
  deriving DecidableEq, Repr

/-- The machine right after reset (spec/70_reset_and_hazards.md R180, R181): TBL_READY is 0, every table entry holds no value,
INFLIGHT is empty and `rsp_valid` is 0. The model's own lists are empty. -/
def State.reset : State :=
  { tblReady := false
    base := Vector.replicate Config.tableEntries none
    shift := Vector.replicate Config.tableEntries none
    inflight := []
    rsp := none
    delivered := []
    program := []
    schedule := [] }

end Sys2Proof.Machine
end

