-- ==== Sys2Proof/Machine/Flags.lean ====
section
/-! DEFINITION. The unit has no flags and no condition codes (spec/10_state.md R23): no operation sets or reads one, so there is
no flag computation here. What a request leaves besides its result is the status of its response (spec/30_encoding.md R64,
spec/60_exceptions.md R160). -/

namespace Sys2Proof.Machine

/-- `rsp_status` (R64, R160): 0 OK, 1 UNSUPPORTED, 2 ILLEGAL_OP. -/
def Response.status : Response → StatusWord
  | .ok _ => 0#2
  | .unsupported => 1#2
  | .illegalOp => 2#2

/-- The result value of a response: it has one with status OK only (R63, R64). -/
def Response.result : Response → Option ResultWord
  | .ok r => some r
  | .unsupported => none
  | .illegalOp => none

/-- The causes of an error response (R161, R162); no other error exists (R163). -/
inductive Cause where
  /-- op code 0x3 or 0x4 -/
  | unsupported
  /-- op code 0x9 to 0xF -/
  | illegalOp
  deriving DecidableEq, Repr

/-- The response that reports a cause. It records nothing else (R161, R162). -/
def Cause.response : Cause → Response
  | .unsupported => .unsupported
  | .illegalOp => .illegalOp

end Sys2Proof.Machine
end

