-- ==== Sys2Proof/Machine/Operands.lean ====
section
/-! DEFINITION. The operand slices and the result slices (spec/30_encoding.md R62, R63, R68). A slice is taken as it is, with no
extension, and the bits above it are ignored; a result stands in the low bits of `rsp_r`, with zeros above it. -/

namespace Sys2Proof.Machine

/-- `h = a[15:0]`, the operand of extendhfsf2. -/
def halfOperand (a : OperandWord) : Half := a.extractLsb' 0 16

/-- `f = a[31:0]`, the operand of extendsfdf2 and truncsfhf2. -/
def singleOperand (a : OperandWord) : Single := a.extractLsb' 0 32

/-- `X = a[127:0]`, the operand of the four integer conversions. -/
def integerOperand (a : OperandWord) : BitVec 128 := a

/-- A binary16 result: `rsp_r[15:0]`, the rest 0. -/
def halfResult (h : Half) : ResultWord := h.setWidth 64

/-- A binary32 result: `rsp_r[31:0]`, the rest 0. -/
def singleResult (f : Single) : ResultWord := f.setWidth 64

/-- A binary64 result: `rsp_r[63:0]`. -/
def doubleResult (d : Double) : ResultWord := d

/-- The operand `a` the host builds from an earlier result for `@k` (R70): its result slice, zero-extended. The bits of
`rsp_r` above a result slice are 0 (R63), so this is `rsp_r` itself, zero-extended. -/
def resultAsOperand (r : ResultWord) : OperandWord := r.setWidth 128

end Sys2Proof.Machine
end

