-- ==== Sys2Proof/Machine/Tables.lean ====
section
/-! DEFINITION. TableInit, the contents of the half-float lookup tables (spec/10_state.md R26), and the key of an entry (R24). -/

namespace Sys2Proof.Machine

/-- The true exponent `e = e_raw - 127` of an exponent byte. -/
def trueExponent (eRaw : Nat) : Int := (eRaw : Int) - 127

/-- The positive BASE entry of an exponent byte: the five cases of R26. -/
def positiveBase (eRaw : Nat) : Nat :=
  let e := trueExponent eRaw
  if e < -24 then 0x0000
  else if e < -14 then 0x0400 >>> (-e - 14).toNat
  else if e ≤ 15 then (e + 15).toNat <<< 10
  else 0x7C00

/-- The SHIFT entry of an exponent byte: the five cases of R26. -/
def shiftAmount (eRaw : Nat) : Nat :=
  let e := trueExponent eRaw
  if e < -24 then 24
  else if e < -14 then (-e - 1).toNat
  else if e ≤ 15 then 13
  else if e < 128 then 24
  else 13

/-- `TableInit.base[i]`: the entry of exponent byte `i % 256`, with 0x8000 OR-ed in for a negative key (R26, R28). -/
def initBase (i : Nat) : BaseWord :=
  BitVec.ofNat 16 (positiveBase (i % 0x100) ||| (if 0x100 ≤ i then 0x8000 else 0))

/-- `TableInit.shift[i]` (R26, R28). -/
def initShift (i : Nat) : ShiftWord := BitVec.ofNat 8 (shiftAmount (i % 0x100))

/-- A table written from a function of the index. -/
def tabulate {α : Type} (f : Nat → α) : Vector (Option α) Config.tableEntries :=
  ⟨((List.range' 0 Config.tableEntries).map fun i => some (f i)).toArray, by simp⟩

/-- BASE after initialisation. -/
def initBaseTable : Vector (Option BaseWord) Config.tableEntries := tabulate initBase

/-- SHIFT after initialisation. -/
def initShiftTable : Vector (Option ShiftWord) Config.tableEntries := tabulate initShift

/-- The key of a binary32 pattern, `f[31:23]` (R24, spec/41_narrowing.md R101): 0-based, see spec/90_conflicts.md C5. -/
def tableKey (f : Single) : TableKey := f.extractLsb' 23 9

end Sys2Proof.Machine
end

