-- ==== Sys2Proof/Machine/Ops.lean ====
section
/-! DEFINITION. The named operations over the state: reading the tables, delivering a response, reporting an error (the unit's
only form of exception), resetting the unit, building the tables, and moving requests through INFLIGHT. -/

namespace Sys2Proof.Machine

/-- The answer of one instruction or one step. -/
abbrev Result := Host.Outcome State Fault Refusal

/-- BASE[i] and SHIFT[i], read together at one index (spec/20_memory.md R50); none where an entry holds no value (R30). -/
def readTables (s : State) (i : TableKey) : Option (BaseWord × ShiftWord) :=
  match s.base[i.toNat]'i.isLt, s.shift[i.toNat]'i.isLt with
  | some b, some sh => some (b, sh)
  | _, _ => none

/-- Delivers `r` as the response to `q` on the response port (spec/70_reset_and_hazards.md R184) and adds the pair to the
observation (R190). -/
def deliver (q : Request) (r : Response) (s : State) : State :=
  { s with rsp := some r, delivered := s.delivered ++ [(q, r)] }

/-- `respond OK(v)` (spec/00_scope.md R13). -/
def respondOk (q : Request) (v : ResultWord) (s : State) : Result := .next (deliver q (.ok v) s)

/-- Reporting an error: `raise Unsupported()` and `raise IllegalOp()` (R13; spec/60_exceptions.md R165). The error is the status of
the request's own response. Nothing is saved, there is no handler, and the mode does not change. There is no return (R166). -/
def takeError (q : Request) (c : Cause) (s : State) : Result := .next (deliver q c.response s)

/-- The unit while `rst` is 1 (spec/70_reset_and_hazards.md R180): TBL_READY is 0, no entry holds a value, INFLIGHT is empty, and
what was in it gets no response. `rsp_valid` is 0 (R181). -/
def resetUnit (s : State) : State :=
  { s with
    tblReady := false
    base := Vector.replicate Config.tableEntries none
    shift := Vector.replicate Config.tableEntries none
    inflight := []
    rsp := none }

/-- The initialisation step (R182): all 1024 entries and TBL_READY, in one atomic step. -/
def buildTables (s : State) : State :=
  { s with tblReady := true, base := initBaseTable, shift := initShiftTable }

/-- Acceptance of the request on the port (R183): it is appended to INFLIGHT, and the requester goes on to its next line. -/
def acceptRequest (q : Request) (s : State) : State :=
  { s with inflight := s.inflight ++ [q], program := s.program.tail }

/-- Removal of the head of INFLIGHT (R184). -/
def takeHead (s : State) : State := { s with inflight := s.inflight.tail }

/-- A step begins: its entry of the schedule is used up, and the response of the step before is gone from the port. -/
def beginStep (s : State) : State := { s with rsp := none, schedule := s.schedule.tail }

/-- The unit initialised and with `q` at the head of INFLIGHT (in the place of the head, if there is one), and the response
step scheduled next: all it takes for `q` to be the next request that runs. -/
def placeRequest (q : Request) (s : State) : State :=
  { s with
    tblReady := true
    base := initBaseTable
    shift := initShiftTable
    inflight := q :: s.inflight.tail
    schedule := { rst := false, turn := .respond } :: s.schedule }

end Sys2Proof.Machine
end

