-- ==== Sys2Proof/Machine/IntToFloat.lean ====
section
/-! DEFINITION. The 128-bit integer to float engine (spec/42_int_to_float.md R130 to R138) and its four operations (R140 to R143). -/

namespace Sys2Proof.Machine

/-- The sign and the magnitude of X (R132): a signed X is read as two's complement, an unsigned one as it is. -/
def signMagnitude (signed : Bool) (X : BitVec 128) : Nat × Nat :=
  if signed && X.getLsbD 127 then (1, neg128 X.toNat) else (0, X.toNat)

/-- The mantissa y of a magnitude x > 0, the carry of the rounding included (R134 to R136). The mask of the rounding case is
`2^(M+1) - 1` (spec/90_conflicts.md C1); `y & ~1` is taken at M+1 bits. -/
def roundedMantissa (M x : Nat) : Nat :=
  let n := bitlen x
  if n ≤ M + 1 then (x <<< (M + 1 - n)) &&& (2 ^ M - 1)
  else
    let y := (x >>> (n - (M + 2))) &&& (2 ^ (M + 1) - 1)
    let y := (y + 1) >>> 1
    if ctz x = n - (M + 2) then y &&& (2 ^ (M + 1) - 1 - 1) else y

/-- `IntToFloat` (R130). The exponent field and the mantissa are ADDED, so that a rounding carry reaches the exponent (R138). -/
def intToFloat (signed : Bool) (M B W : Nat) (X : BitVec 128) : Nat :=
  if X = 0#128 then 0
  else
    let s := (signMagnitude signed X).1
    let x := (signMagnitude signed X).2
    let d := (bitlen x - 1 + B) <<< M
    (s <<< (W - 1)) ||| (d + roundedMantissa M x)

/-- The float32 instances: M = 23, B = 127, W = 32. -/
def intToSingle (signed : Bool) (X : BitVec 128) : Single := BitVec.ofNat 32 (intToFloat signed 23 127 32 X)

/-- The float64 instances: M = 52, B = 1023, W = 64. -/
def intToDouble (signed : Bool) (X : BitVec 128) : Double := BitVec.ofNat 64 (intToFloat signed 52 1023 64 X)

/-- floattisf (R140). -/
def execFloattisf (a : OperandWord) (s : State) : Result :=
  respondOk (Instr.request (.floattisf a)) (singleResult (intToSingle true (integerOperand a))) s

/-- floattidf (R141). -/
def execFloattidf (a : OperandWord) (s : State) : Result :=
  respondOk (Instr.request (.floattidf a)) (doubleResult (intToDouble true (integerOperand a))) s

/-- floatuntisf (R142). -/
def execFloatuntisf (a : OperandWord) (s : State) : Result :=
  respondOk (Instr.request (.floatuntisf a)) (singleResult (intToSingle false (integerOperand a))) s

/-- floatuntidf (R143). -/
def execFloatuntidf (a : OperandWord) (s : State) : Result :=
  respondOk (Instr.request (.floatuntidf a)) (doubleResult (intToDouble false (integerOperand a))) s

end Sys2Proof.Machine
end

