-- ==== Sys2Proof/Machine/Narrowing.lean ====
section
/-! DEFINITION. The narrowing conversions (spec/41_narrowing.md): the table-driven truncsfhf2, and the two unsupported ones. -/

namespace Sys2Proof.Machine

/-- The table algorithm of R100 on the entries of f's key: `b` is BASE[i] and `sh` is SHIFT[i]. The sum and the increment are
modulo 2^16 (R103, R104). -/
def narrowWith (b : BaseWord) (sh : ShiftWord) (f : Single) : Half :=
  let n := sh.toNat
  let m := f.toNat &&& 0x007FFFFF
  let h := (b.toNat + (m >>> n)) % 2 ^ 16
  let nextbit := (m >>> (n - 1)) &&& 1
  if nextbit = 1 ∧ (h &&& 1 = 1 ∨ m &&& (2 ^ (n - 1) - 1) ≠ 0) then BitVec.ofNat 16 ((h + 1) % 2 ^ 16)
  else BitVec.ofNat 16 h

/-- truncsfhf2 (R100). A table entry that holds no value is a fault (spec/10_state.md R30). -/
def execTruncsfhf2 (a : OperandWord) (s : State) : Result :=
  let f := singleOperand a
  match readTables s (tableKey f) with
  | some (b, sh) => respondOk (Instr.request (.truncsfhf2 a)) (halfResult (narrowWith b sh f)) s
  | none => .fault (.tableEntryUnset (tableKey f))

/-- truncdfhf2 (R120): UNSUPPORTED for every operand. No bit of `a` is read. -/
def execTruncdfhf2 (a : OperandWord) (s : State) : Result :=
  takeError (Instr.request (.truncdfhf2 a)) .unsupported s

/-- truncdfsf2 (R121): UNSUPPORTED for every operand. No bit of `a` is read. -/
def execTruncdfsf2 (a : OperandWord) (s : State) : Result :=
  takeError (Instr.request (.truncdfsf2 a)) .unsupported s

end Sys2Proof.Machine
end

