-- ==== Sys2Proof/Machine/Formats.lean ====
section
/-! DEFINITION. The fields of a float pattern (spec/00_scope.md R14 to R16). -/

namespace Sys2Proof.Machine

/-- The width of a pattern: sign, exponent field, mantissa field. -/
def fmtWidth (f : Format) : Nat := 1 + f.E + f.M

/-- The sign bit `v[E+M]`. -/
def signOf (f : Format) (v : Nat) : Nat := field v (f.E + f.M) (f.E + f.M)

/-- The biased exponent field `v[E+M-1 : M]`. -/
def expOf (f : Format) (v : Nat) : Nat := field v (f.E + f.M - 1) f.M

/-- The mantissa field `v[M-1 : 0]`. -/
def mantOf (f : Format) (v : Nat) : Nat := field v (f.M - 1) 0

end Sys2Proof.Machine
end

