-- ==== Sys2Proof/Machine/Widening.lean ====
section
/-! DEFINITION. The widening conversions (spec/40_widening.md R81 to R90). -/

namespace Sys2Proof.Machine

/-- `Widen` (R81), the unique function that meets the source's contract, with the source's NaN payload rule (R86). The
differences `p + 1 - Ms - Bs + Bd` and `e - Bs + Bd` are written with their additions first: both are non-negative. -/
def widen (src dst : Format) (v : Nat) : Nat :=
  let s := signOf src v
  let e := expOf src v
  let m := mantOf src v
  let S := s <<< (dst.E + dst.M)
  if e = 0 ∧ m = 0 then S
  else if e = 0 then
    let p := bitlen m - 1
    S ||| ((p + 1 + dst.B - (src.M + src.B)) <<< dst.M) ||| ((m - 2 ^ p) <<< (dst.M - p))
  else if e = 2 ^ src.E - 1 ∧ m = 0 then S ||| ((2 ^ dst.E - 1) <<< dst.M)
  else if e = 2 ^ src.E - 1 then S ||| ((2 ^ dst.E - 1) <<< dst.M) ||| (m <<< (dst.M - src.M))
  else S ||| ((e + dst.B - src.B) <<< dst.M) ||| (m <<< (dst.M - src.M))

/-- binary16 to binary32 (R88). -/
def widenHalf (h : Half) : Single := BitVec.ofNat 32 (widen .half .single h.toNat)

/-- binary32 to binary64 (R89). -/
def widenSingle (f : Single) : Double := BitVec.ofNat 64 (widen .single .double f.toNat)

/-- extendhfsf2 (R88). -/
def execExtendhfsf2 (a : OperandWord) (s : State) : Result :=
  respondOk (Instr.request (.extendhfsf2 a)) (singleResult (widenHalf (halfOperand a))) s

/-- extendsfdf2 (R89). -/
def execExtendsfdf2 (a : OperandWord) (s : State) : Result :=
  respondOk (Instr.request (.extendsfdf2 a)) (doubleResult (widenSingle (singleOperand a))) s

end Sys2Proof.Machine
end

