-- ==== Sys2Proof/Machine/Dispatch.lean ====
section
/-! DEFINITION. Exec (spec/30_encoding.md R69) on the nine operations: one arm per constructor of Instr. -/

namespace Sys2Proof.Machine

def exec (i : Instr) (s : State) : Host.Outcome State Fault Refusal :=
  match i with
  | .extendhfsf2 a => Sys2Proof.Machine.execExtendhfsf2 a s
  | .extendsfdf2 a => Sys2Proof.Machine.execExtendsfdf2 a s
  | .truncsfhf2 a => Sys2Proof.Machine.execTruncsfhf2 a s
  | .truncdfhf2 a => Sys2Proof.Machine.execTruncdfhf2 a s
  | .truncdfsf2 a => Sys2Proof.Machine.execTruncdfsf2 a s
  | .floattisf a => Sys2Proof.Machine.execFloattisf a s
  | .floattidf a => Sys2Proof.Machine.execFloattidf a s
  | .floatuntisf a => Sys2Proof.Machine.execFloatuntisf a s
  | .floatuntidf a => Sys2Proof.Machine.execFloatuntidf a s

end Sys2Proof.Machine
end

