-- ==== Sys2Proof/Machine/Agents.lean ====
section
/-! DEFINITION. The agents and their steps (spec/70_reset_and_hazards.md, section 1): reset by the environment, initialisation,
acceptance by the requester and the unit, response. The enabling conditions are those of R182, R183 and R184; a turn given to an
agent whose step is not enabled leaves the unit as it is (a request on the port is held, R183). -/

namespace Sys2Proof.Machine

/-- What stands on the request port. -/
inductive Offer where
  /-- `req_valid = 0`: no line is left, or the result its operand needs has not arrived (R186). -/
  | nothing
  /-- `req_valid = 1` with this request. -/
  | request (q : Request)
  /-- The line needs the result of response k, which has none. -/
  | noValue (k : Nat)
  deriving DecidableEq, Repr

/-- The k-th response of the run, counted from 1; none while it has not been delivered. -/
def responseNo (delivered : List (Request × Response)) (k : Nat) : Option Response :=
  match k with
  | 0 => none
  | j + 1 => (delivered[j]?).map Prod.snd

/-- What the requester presents for a line, given the responses it has received (spec/30_encoding.md R70): a literal operand as it
is, `@k` as the result of response k once that has arrived. -/
def offerLine (delivered : List (Request × Response)) (l : HostLine) : Offer :=
  match l.operand with
  | .lit a => .request { op := l.opCode, a := a }
  | .result k =>
    match responseNo delivered k with
    | none => .nothing
    | some (.ok r) => .request { op := l.opCode, a := resultAsOperand r }
    | some .unsupported => .noValue k
    | some .illegalOp => .noValue k

/-- The request port: the first line of the program that has not been accepted, kept there, unchanged, until it is (R183). -/
def offer (s : State) : Offer :=
  match s.program with
  | [] => .nothing
  | l :: _ => offerLine s.delivered l

/-- `req_valid` (R32). -/
def reqValid (s : State) : Bool :=
  match offer s with
  | .request _ => true
  | .nothing => false
  | .noValue _ => false

/-- `req_ready` (R32): TBL_READY is 1 and INFLIGHT has room. -/
def reqReady (s : State) : Bool := s.tblReady && decide (s.inflight.length < Config.maxOutstanding)

/-- The initialisation step is enabled (R182). -/
def initEnabled (rst : Bool) (s : State) : Bool := !rst && !s.tblReady

/-- The acceptance step is enabled (R183). -/
def acceptEnabled (rst : Bool) (s : State) : Bool := !rst && reqValid s && reqReady s

/-- The response step is enabled (R184). -/
def respondEnabled (rst : Bool) (s : State) : Bool := !rst && !s.inflight.isEmpty

/-- The init agent's turn (R182). -/
def initTurn (s : State) : Result :=
  if initEnabled false s then .next (buildTables s) else .next s

/-- The requester's turn (R183). A request that is not accepted is held: it stays on the port and nothing changes. -/
def acceptTurn (s : State) : Result :=
  match offer s with
  | .nothing => .next s
  | .noValue k => .fault (.resultHasNoValue k)
  | .request q => if reqReady s then .next (acceptRequest q s) else .next s

/-- The response to one request (spec/30_encoding.md R69): its op code decides, and a reserved one is answered with ILLEGAL_OP
(R66, R162). -/
def runRequest (q : Request) (s : State) : Result :=
  match decodeRequest q with
  | .ok i => exec i s
  | .error (.reservedOp _) => takeError q .illegalOp s

/-- The unit's turn (R184): the head of INFLIGHT is taken out and answered. -/
def respondTurn (s : State) : Result :=
  match s.inflight with
  | [] => .next s
  | q :: _ => runRequest q (takeHead s)

/-- Whose turn it is once the schedule is used up: with `rst` at 0, the steps that R183, R184 and R189 say are always eventually
taken are taken, initialisation first, then responses, then acceptance (notes/assumptions/4.md). -/
def fairTurn (s : State) : Turn :=
  if !s.tblReady then .init
  else if s.inflight.isEmpty then .accept
  else .respond

/-- The entry of the schedule that says what happens in this step. -/
def nextSlot (s : State) : Slot :=
  match s.schedule with
  | [] => { rst := false, turn := fairTurn s }
  | slot :: _ => slot

/-- A turn, in a step with `rst` at 0. -/
def takeTurn (tn : Turn) (s : State) : Result :=
  match tn with
  | .init => initTurn s
  | .accept => acceptTurn s
  | .respond => respondTurn s

/-- One step under an entry of the schedule. Reset takes precedence (spec/60_exceptions.md R164): with `rst` at 1 no other step is
enabled (R180). -/
def takeSlot (slot : Slot) (s : State) : Result :=
  if slot.rst then .next (resetUnit s) else takeTurn slot.turn s

end Sys2Proof.Machine
end

