-- ==== Sys2Proof/Machine/Step.lean ====
section
/-! DEFINITION. The step function, and how the word of an opcode-table row is placed so that the next step runs it. -/

namespace Sys2Proof.Machine

/-- One step of the machine. -/
def step (s : State) : Host.Outcome State Fault Refusal := takeSlot (nextSlot s) (beginStep s)

/-- `s` with the request whose bits are `w` (numbered as the opcode table numbers them) at the head of INFLIGHT of the
initialised unit, the response step coming next (notes/assumptions/7.md). -/
def State.withFetchWord (s : State) (nbits w : Nat) : State := placeRequest (requestOfTableWord nbits w) s

end Sys2Proof.Machine
end

