-- ==== Sys2Proof/Safety.lean ====
section
/-! DEFINITION. The terms claims use: the value of a float pattern and correct rounding (spec/00_scope.md R17 to R20), the response
the spec gives a request (spec/30_encoding.md R69), the invariant of the machine, and what ends a run well
(spec/70_reset_and_hazards.md R190). Nothing here is used by the step. -/

namespace Sys2Proof.Machine

/-! ## Classes and values of float patterns -/

/-- Neither an infinity nor a NaN (R17). -/
def isFinite (f : Format) (v : Nat) : Prop := expOf f v ≠ 2 ^ f.E - 1

/-- Exponent field all ones, mantissa 0 (R17). -/
def isInfinity (f : Format) (v : Nat) : Prop := expOf f v = 2 ^ f.E - 1 ∧ mantOf f v = 0

/-- Exponent field all ones, mantissa not 0 (R17). -/
def isNaN (f : Format) (v : Nat) : Prop := expOf f v = 2 ^ f.E - 1 ∧ mantOf f v ≠ 0

/-- The magnitude of a finite pattern (R18, which is general knowledge, G1 of spec/93_implementation_defined.md). -/
def magnitude (f : Format) (v : Nat) : ℚ :=
  if expOf f v = 0 then (2 : ℚ) ^ (1 - (f.B : ℤ)) * ((mantOf f v : ℚ) / 2 ^ f.M)
  else (2 : ℚ) ^ ((expOf f v : ℤ) - f.B) * (1 + (mantOf f v : ℚ) / 2 ^ f.M)

/-- The value of a finite pattern (R18). -/
def value (f : Format) (v : Nat) : ℚ := (-1) ^ signOf f v * magnitude f v

/-- `r` is a nearest finite pattern to `x`, and has an even mantissa where a pattern of another value is equally near (R19). -/
def NearestEven (f : Format) (x : ℚ) (r : Nat) : Prop :=
  isFinite f r ∧ ∀ c : Nat, c < 2 ^ fmtWidth f → isFinite f c →
    |value f r - x| ≤ |value f c - x| ∧
    (|value f r - x| = |value f c - x| → value f c ≠ value f r → mantOf f r % 2 = 0)

/-- The magnitude from which on rounding to nearest gives an infinity: the midpoint between the largest finite magnitude and the
next power of two (R108: 65520 for binary16; R139: 2^128 - 2^103 for binary32). -/
def overflowBound (f : Format) : ℚ :=
  (2 : ℚ) ^ ((2 ^ f.E : ℤ) - 2 - f.B) * (2 - (1 / 2 : ℚ) ^ (f.M + 1))

/-- The infinity of a sign. -/
def infinityOf (f : Format) (sign : Nat) : Nat := sign * 2 ^ (f.E + f.M) + (2 ^ f.E - 1) * 2 ^ f.M

/-- `r` is `x` correctly rounded to nearest, ties to even (R19, R20). -/
def CorrectlyRounded (f : Format) (x : ℚ) (r : Nat) : Prop :=
  r < 2 ^ fmtWidth f ∧
  (|x| < overflowBound f → NearestEven f x r) ∧
  (overflowBound f ≤ |x| → r = infinityOf f (if x < 0 then 1 else 0))

/-! ## The response the spec gives a request -/

/-- truncsfhf2 on the tables as TableInit leaves them, as a function on binary32 patterns. -/
def narrowSingle (f : Single) : Half :=
  narrowWith (initBase (tableKey f).toNat) (initShift (tableKey f).toNat) f

/-- `Exec(op, a)` (R69), on the tables as TableInit leaves them (spec/20_memory.md R53): a function of the request alone. -/
def specResponse (q : Request) : Response :=
  match q.op.toNat with
  | 0x0 => .ok (singleResult (widenHalf (halfOperand q.a)))
  | 0x1 => .ok (doubleResult (widenSingle (singleOperand q.a)))
  | 0x2 => .ok (halfResult (narrowSingle (singleOperand q.a)))
  | 0x3 => .unsupported
  | 0x4 => .unsupported
  | 0x5 => .ok (singleResult (intToSingle true q.a))
  | 0x6 => .ok (doubleResult (intToDouble true q.a))
  | 0x7 => .ok (singleResult (intToSingle false q.a))
  | 0x8 => .ok (doubleResult (intToDouble false q.a))
  | _ => .illegalOp

/-- `s` after the request `{op, a}` has been answered with `r`, nothing else having changed. -/
def answered (op : OpCode) (a : OperandWord) (r : Response) (s : State) : State :=
  { s with rsp := some r, delivered := s.delivered ++ [({ op := op, a := a }, r)] }

/-! ## The invariant -/

/-- Every entry has its TableInit value (spec/10_state.md R24, R25). -/
def TablesBuilt (s : State) : Prop := s.base = initBaseTable ∧ s.shift = initShiftTable

/-- No entry holds a value (R30). -/
def TablesUnset (s : State) : Prop :=
  s.base = Vector.replicate Config.tableEntries none ∧ s.shift = Vector.replicate Config.tableEntries none

/-- The invariant of the machine. -/
structure MachineInv (s : State) : Prop where
  /-- Once TBL_READY is 1, the tables hold TableInit (R24, R25). -/
  built : s.tblReady = true → TablesBuilt s
  /-- While TBL_READY is 0, the entries hold no value (R30). -/
  unset : s.tblReady = false → TablesUnset s
  /-- Nothing has been accepted while TBL_READY is 0 (R183). -/
  idle : s.tblReady = false → s.inflight = []
  /-- INFLIGHT has at most MAX_OUTSTANDING elements (R31). -/
  room : s.inflight.length ≤ Config.maxOutstanding
  /-- Every response delivered so far is the one the spec gives its request (spec/20_memory.md R53). -/
  sound : ∀ p ∈ s.delivered, p.2 = specResponse p.1

/-! ## Runs -/

/-- The unit is quiescent, in a step with `rst` at 0 (R190). -/
def Quiescent (s : State) : Prop := s.tblReady = true ∧ s.inflight = []

/-- A program whose operands are all literals. -/
def literalProgram (p : List HostLine) : Bool :=
  p.all fun l => match l.operand with | .lit _ => true | .result _ => false

/-- The requests a program of literals presents, in order. -/
def literalRequests (p : List HostLine) : List Request :=
  p.filterMap fun l => match l.operand with
    | .lit a => some { op := l.opCode, a := a }
    | .result _ => none

/-- `n` steps of the machine, stopping at the first fault or refusal. -/
def runSteps (n : Nat) (s : State) : Result := Host.Core.run Sys2Proof.core n s

/-- A run from `s` is safe: no number of steps ends in a fault or a refusal. -/
def SafeRun (s : State) : Prop :=
  ∀ n : Nat, ∃ t, runSteps n s = .next t

end Sys2Proof.Machine
end

