-- ==== Sys2Proof/WellFormed.lean ====
section
/-! DEFINITION. What is well formed: a request that names an operation (spec/30_encoding.md R65, R66) and the lines of a
requester's program (R70). Every term of `Instr` is an operation the unit runs on every operand, since an operation ignores
the bits of `a` above its slice (R62) and is total (spec/60_exceptions.md R163): the check on an operation is the check on the
request it stands for. -/

namespace Sys2Proof

/-- A request names one of the nine operations: its op code is not reserved (R65, R66). -/
def Request.wf (q : Request) : Bool := decide (q.op.toNat ≤ 8)

/-- An operation is well formed when the request that carries it is. -/
def Instr.wf (i : Instr) : Bool := i.request.wf

/-- How many low bits of `a` the operand slice of a mnemonic has (R62; for the two unsupported narrowings the nominal 64). -/
def Mnemonic.sliceWidth : Mnemonic → Nat
  | .extendhfsf2 => 16
  | .extendsfdf2 => 32
  | .truncsfhf2 => 32
  | .truncdfhf2 => 64
  | .truncdfsf2 => 64
  | .floattisf => 128
  | .floattidf => 128
  | .floatuntisf => 128
  | .floatuntidf => 128

/-- An operand of the program line with `j` lines before it: a literal no wider than the slice, or `@k` for an EARLIER line
counted from 1 (R70). -/
def LineOperand.wf (width j : Nat) : LineOperand → Bool
  | .lit a => decide (a.toNat < 2 ^ width)
  | .result k => decide (1 ≤ k ∧ k ≤ j)

/-- A program line with `j` lines before it (R70). -/
def HostLine.wf (j : Nat) : HostLine → Bool
  | .named m o => o.wf m.sliceWidth j
  | .raw _ o => o.wf 128 j

/-- A program whose first line has `j` lines before it (R70). -/
def programWf (j : Nat) : List HostLine → Bool
  | [] => true
  | l :: rest => l.wf j && programWf (j + 1) rest

end Sys2Proof
end

