-- ==== Sys2Proof/Certificates/Slice0/Obligations.lean ====
section
/-! DEFINITION. The statements for the provers, each with the rule of spec/ it formalises. `answered op a r s` is `s` with the
request `{op, a}` answered by `r` and NOTHING else changed, so a result statement that ends in it is also the frame and the
completion of its operation. Where a docstring says "derived", the spec marks the sentence it names as its own inference from the rules
named after it; "log n" is notes/assumptions/n.md, a choice of the model. -/

open Sys2Proof Sys2Proof.Machine

/-! ## Request words and decoding -/

/-- Nine words written out from R61 and R65, and one reserved one (R66). -/
def Obligations.SpecRequestWordsDecode : Prop :=
  decode 0x000000000000000000000000000003C00#132 = .ok (.extendhfsf2 0x3C00#128) ∧
  decode 0x10000000000000000000000003F800000#132 = .ok (.extendsfdf2 0x3F800000#128) ∧
  decode 0x20000000000000000FFFFFFFF3F800000#132 = .ok (.truncsfhf2 0xFFFFFFFF3F800000#128) ∧
  decode 0x300000000000000003FF0000000000000#132 = .ok (.truncdfhf2 0x3FF0000000000000#128) ∧
  decode 0x400000000000000007FF8000000000000#132 = .ok (.truncdfsf2 0x7FF8000000000000#128) ∧
  decode 0x50000000027E41B3246BEC9B16E398115#132 = .ok (.floattisf 0x27E41B3246BEC9B16E398115#128) ∧
  decode 0x680000000000000000000000000000000#132 = .ok (.floattidf 0x80000000000000000000000000000000#128) ∧
  decode 0x7FFFFFFFFFFFFFFFFFFFFFFFFFFFFFFFF#132 = .ok (.floatuntisf 0xFFFFFFFFFFFFFFFFFFFFFFFFFFFFFFFF#128) ∧
  decode 0x800000000000000000020000000000001#132 = .ok (.floatuntidf 0x20000000000001#128) ∧
  decode 0xF00000000000000000000000000000000#132 = .error (.reservedOp 0xF#4)

/-- Decoding and encoding are inverse to each other, with every operand at every value (R61, R65). -/
def Obligations.DecodeAndEncodeAreInverse : Prop :=
  (∀ i : Instr, i.wf = true → decode (encode i) = .ok i) ∧
  (∀ (w : RequestWord) (i : Instr), decode w = .ok i → encode i = w ∧ i.wf = true) ∧
  (∀ i j : Instr, encode i = encode j → i = j)

/-- Decoding is total over the 16 op codes, and nothing but `op` decides (R65, R66). -/
def Obligations.DecodingIsTotalOverOpCodes : Prop :=
  ∀ w : RequestWord,
    ((w.extractLsb' 128 4).toNat ≤ 8 →
      ∃ i, decode w = .ok i ∧ i.opCode = w.extractLsb' 128 4 ∧ i.operand = w.extractLsb' 0 128) ∧
    (9 ≤ (w.extractLsb' 128 4).toNat → decode w = .error (.reservedOp (w.extractLsb' 128 4)))

/-- The rows of spec/opcode_table.json: the match value of each, with any operand. A reserved op code, and a word longer than the
one request length (R67), give none. -/
def Obligations.OpcodeTableRowsDecode : Prop :=
  ∀ a : OperandWord,
    decodeTableWord 136 (0x0 * 2 ^ 128 + a.toNat) = some (.extendhfsf2 a) ∧
    decodeTableWord 136 (0x1 * 2 ^ 128 + a.toNat) = some (.extendsfdf2 a) ∧
    decodeTableWord 136 (0x2 * 2 ^ 128 + a.toNat) = some (.truncsfhf2 a) ∧
    decodeTableWord 136 (0x3 * 2 ^ 128 + a.toNat) = some (.truncdfhf2 a) ∧
    decodeTableWord 136 (0x4 * 2 ^ 128 + a.toNat) = some (.truncdfsf2 a) ∧
    decodeTableWord 136 (0x5 * 2 ^ 128 + a.toNat) = some (.floattisf a) ∧
    decodeTableWord 136 (0x6 * 2 ^ 128 + a.toNat) = some (.floattidf a) ∧
    decodeTableWord 136 (0x7 * 2 ^ 128 + a.toNat) = some (.floatuntisf a) ∧
    decodeTableWord 136 (0x8 * 2 ^ 128 + a.toNat) = some (.floatuntidf a) ∧
    (∀ k : Nat, 9 ≤ k → k < 256 → decodeTableWord 136 (k * 2 ^ 128 + a.toNat) = none)

/-! ## The tables -/

/-- The tables as spec/10_state.md R27 lists them, by class of the exponent byte (derived, from R26). -/
def Obligations.TableInitIsTheListing : Prop :=
  ∀ i : Nat, i < 256 →
    (i ≤ 0x66 → initBase i = 0x0000#16 ∧ initShift i = 24#8) ∧
    (0x67 ≤ i → i ≤ 0x70 → initBase i = BitVec.ofNat 16 (2 ^ (i - 0x67)) ∧ initShift i = BitVec.ofNat 8 (126 - i)) ∧
    (0x71 ≤ i → i ≤ 0x8E → initBase i = BitVec.ofNat 16 (0x400 * (i - 0x70)) ∧ initShift i = 13#8) ∧
    (0x8F ≤ i → i ≤ 0xFE → initBase i = 0x7C00#16 ∧ initShift i = 24#8) ∧
    (i = 0xFF → initBase i = 0x7C00#16 ∧ initShift i = 13#8)

/-- Sign symmetry (R28; derived, from R26), of the tables of any state after initialisation. -/
def Obligations.TablesAreSignSymmetric : Prop :=
  ∀ s : State, TablesBuilt s →
    (∀ i : Nat, i ≤ 0xFF → ∃ (b : BaseWord) (h : ShiftWord),
      s.base[i]? = some (some b) ∧ s.base[0x100 ||| i]? = some (some (b ||| 0x8000#16)) ∧
      s.shift[i]? = some (some h) ∧ s.shift[0x100 ||| i]? = some (some h)) ∧
    s.base[0x17F]? = some (some 0xBC00#16) ∧ s.shift[0x17F]? = some (some 13#8)

/-- Every SHIFT value TableInit stores is in 13..24 (last sentence of R25; derived, from R26). -/
def Obligations.ShiftEntriesAreThirteenToTwentyFour : Prop :=
  ∀ i : Nat, 13 ≤ (initShift i).toNat ∧ (initShift i).toNat ≤ 24

/-! ## Reset and initialisation -/

/-- The state after reset and after initialisation (R181). Of the reset state it names only what the spec gives a value or says to be
empty. -/
def Obligations.ResetAndInitialisedValues : Prop :=
  (State.reset.tblReady = false ∧ TablesUnset State.reset ∧ State.reset.inflight = [] ∧ State.reset.rsp = none ∧
    reqReady State.reset = false) ∧
  (∀ (s : State) (tn : Turn) (rest : List Slot), s.schedule = { rst := true, turn := tn } :: rest →
    ∃ t, step s = .next t ∧ t.tblReady = false ∧ TablesUnset t ∧ t.inflight = [] ∧ t.rsp = none ∧ reqReady t = false ∧
      (∀ rest' : List Slot, rest = { rst := false, turn := .init } :: rest' →
        ∃ u, step t = .next u ∧ u.tblReady = true ∧ TablesBuilt u ∧ u.inflight = [] ∧ u.rsp = none ∧ reqReady u = true))

/-- A step with `rst` at 1 (R180), from any state and whoever's turn it is: the unit's state is the reset state, what was in
INFLIGHT is not answered, and nothing but initialisation can follow; `rsp_valid` is 0 (R181; log 8). That the requester's lines, the
observation and the rest of the schedule stay as they are across reset, so that a discarded request is not presented again, is the
model's choice (logs 9 and 10). -/
def Obligations.ResetStepDiscardsInflight : Prop :=
  ∀ (s : State) (tn : Turn) (rest : List Slot), s.schedule = { rst := true, turn := tn } :: rest →
    ∃ t, step s = .next t ∧
      t = { s with
            tblReady := false
            base := Vector.replicate Config.tableEntries none
            shift := Vector.replicate Config.tableEntries none
            inflight := []
            rsp := none
            schedule := rest } ∧
      initEnabled true s = false ∧ acceptEnabled true s = false ∧ respondEnabled true s = false ∧
      initEnabled false t = true ∧ acceptEnabled false t = false ∧ respondEnabled false t = false

/-- The initialisation step (R182): all 1024 entries and TBL_READY in one step, and nothing else; where TBL_READY is already 1 the
step is not enabled, and the turn changes nothing (log 5). -/
def Obligations.InitialisationStepBuildsTables : Prop :=
  ∀ (s : State) (rest : List Slot), s.schedule = { rst := false, turn := .init } :: rest →
    (initEnabled false s = true ↔ s.tblReady = false) ∧
    (s.tblReady = false → ∃ t, step s = .next t ∧ t.tblReady = true ∧
      (∀ i : Nat, i < 512 → t.base[i]? = some (some (initBase i)) ∧ t.shift[i]? = some (some (initShift i))) ∧
      t.inflight = s.inflight ∧ t.delivered = s.delivered ∧ t.program = s.program ∧ t.rsp = none ∧ t.schedule = rest) ∧
    (s.tblReady = true → step s = .next { s with rsp := none, schedule := rest })

/-- Only reset and initialisation write the tables or TBL_READY (R29, R182). -/
def Obligations.OnlyResetAndInitWriteTables : Prop :=
  ∀ s t : State, step s = .next t →
    (t.base = s.base ∧ t.shift = s.shift ∧ t.tblReady = s.tblReady) ∨
    ((nextSlot s).rst = true ∧ TablesUnset t ∧ t.tblReady = false) ∨
    ((nextSlot s).rst = false ∧ (nextSlot s).turn = .init ∧ s.tblReady = false ∧ TablesBuilt t ∧ t.tblReady = true)

/-! ## Acceptance -/

/-- The acceptance step (R183): the request on the port goes to the tail of INFLIGHT, and nothing else of the unit changes. -/
def Obligations.AcceptanceAppendsRequest : Prop :=
  ∀ (s : State) (rest : List Slot) (q : Request), s.schedule = { rst := false, turn := .accept } :: rest →
    offer s = .request q → s.tblReady = true → s.inflight.length < Config.maxOutstanding →
    acceptEnabled false s = true ∧
    step s = .next { s with
      inflight := s.inflight ++ [q], program := s.program.tail, rsp := none, schedule := rest }

/-- A request presented while `req_ready` is 0 is held (R183): the turn changes nothing (log 5). -/
def Obligations.UnreadyUnitHoldsRequest : Prop :=
  ∀ (s : State) (rest : List Slot) (q : Request), s.schedule = { rst := false, turn := .accept } :: rest →
    offer s = .request q → (s.tblReady = false ∨ Config.maxOutstanding ≤ s.inflight.length) →
    reqReady s = false ∧ acceptEnabled false s = false ∧ step s = .next { s with rsp := none, schedule := rest }

/-- A request on the port stays there, unchanged, through every step, resets included, until the step that accepts it (R183). -/
def Obligations.HeldRequestStaysOnPort : Prop :=
  ∀ (s t : State) (q : Request), offer s = .request q → step s = .next t →
    (t.program = s.program ∧ offer t = .request q) ∨
    ((nextSlot s).rst = false ∧ (nextSlot s).turn = .accept ∧ reqReady s = true ∧
      t.program = s.program.tail ∧ t.inflight = s.inflight ++ [q])

/-- The host puts the result of response k in for `@k`, only once it has arrived (R70, R186), and reading a result that has no value
is a fault (spec/93_implementation_defined.md U2). How the requester is modelled is log 6. -/
def Obligations.HostForwardsResultsItHasReceived : Prop :=
  ∀ (s : State) (rest : List Slot) (l : HostLine) (ls : List HostLine) (k : Nat),
    s.schedule = { rst := false, turn := .accept } :: rest → s.program = l :: ls → l.operand = .result (k + 1) →
    (s.delivered.length ≤ k → offer s = .nothing ∧ step s = .next { s with rsp := none, schedule := rest }) ∧
    (∀ (q : Request) (r : ResultWord), s.delivered[k]? = some (q, .ok r) →
      offer s = .request { op := l.opCode, a := r.setWidth 128 }) ∧
    (∀ (q : Request) (r : Response), s.delivered[k]? = some (q, r) → r.result = none →
      step s = .fault (.resultHasNoValue (k + 1)))

/-! ## Responses -/

/-- A response step runs the decoded operation: the head of INFLIGHT is taken out, and the step is `exec` of what its word decodes
to. The second clause is the step the model takes when no schedule is left (log 4). -/
def Obligations.ResponseStepRunsDecodedOperation : Prop :=
  ∀ (s : State) (q : Request) (qs : List Request) (i : Instr), s.inflight = q :: qs → decode q.word = .ok i →
    (∀ rest : List Slot, s.schedule = { rst := false, turn := .respond } :: rest →
      step s = exec i { s with inflight := qs, rsp := none, schedule := rest }) ∧
    (s.schedule = [] → s.tblReady = true → step s = exec i { s with inflight := qs, rsp := none })

/-- The word of an opcode-table row, placed by `withFetchWord`, is what the next step runs (log 7). -/
def Obligations.PlacedWordRunsNext : Prop :=
  ∀ (s : State) (nbits w : Nat) (i : Instr), decodeTableWord nbits w = some i →
    ∃ t, step (s.withFetchWord nbits w) = .next t ∧ t = answered i.opCode i.operand (specResponse i.request)
      { s with
        tblReady := true, base := initBaseTable, shift := initShiftTable, inflight := s.inflight.tail, rsp := none }

/-- A response step of the initialised unit (R184): the head of INFLIGHT is removed and its response, `Exec(op, a)`, is delivered.
Every request completes, whatever its op code and operand, and nothing else changes. -/
def Obligations.ResponseStepAnswersHead : Prop :=
  ∀ (s : State) (rest : List Slot) (q : Request) (qs : List Request), TablesBuilt s →
    s.schedule = { rst := false, turn := .respond } :: rest → s.inflight = q :: qs →
    respondEnabled false s = true ∧
    step s = .next (answered q.op q.a (specResponse q) { s with inflight := qs, rsp := none, schedule := rest })

/-- ILLEGAL_OP (R162): every request with op code 0x9 to 0xF, whatever its operand and whatever the tables hold. -/
def Obligations.ReservedOpCodesAnswerIllegalOp : Prop :=
  (∀ (s : State) (rest : List Slot) (q : Request) (qs : List Request),
    s.schedule = { rst := false, turn := .respond } :: rest → s.inflight = q :: qs → 9 ≤ q.op.toNat →
    step s = .next (answered q.op q.a .illegalOp { s with inflight := qs, rsp := none, schedule := rest })) ∧
  Response.status .illegalOp = 2#2 ∧ Response.result .illegalOp = none

/-- UNSUPPORTED (R161): truncdfhf2 and truncdfsf2, for every operand and in every state, and no other request. -/
def Obligations.UnsupportedNarrowingsAlwaysFail : Prop :=
  (∀ (a : OperandWord) (s : State),
    exec (.truncdfhf2 a) s = .next (answered 0x3#4 a .unsupported s) ∧
    exec (.truncdfsf2 a) s = .next (answered 0x4#4 a .unsupported s)) ∧
  (∀ (q : Request) (s t : State), runRequest q s = .next t →
    (t.rsp = some .unsupported ↔ q.op = 0x3#4 ∨ q.op = 0x4#4)) ∧
  Response.status .unsupported = 1#2 ∧ Response.result .unsupported = none

/-- The op code alone decides the status (R160, R164), and a result value goes with status OK only (R63, R64). -/
def Obligations.StatusFollowsFromOpCode : Prop :=
  ∀ (q : Request) (s t : State), runRequest q s = .next t → ∃ r, t.rsp = some r ∧
    r.status = (if q.op.toNat = 3 ∨ q.op.toNat = 4 then 1#2 else if 9 ≤ q.op.toNat then 2#2 else 0#2) ∧
    r.status ≠ 3#2 ∧ (r.result.isSome = true ↔ r.status = 0#2)

/-- A response is on the port exactly in the state a response step led to, and each response step adds its pair, and nothing but
its pair, to the observation (R32, R184, R190; the form of the port and of the observation is logs 8 and 9). -/
def Obligations.ResponsePortShowsThisStepsResponse : Prop :=
  ∀ s t : State, step s = .next t →
    (t.rsp = none ∧ t.delivered = s.delivered ∧
      ¬ ((nextSlot s).rst = false ∧ (nextSlot s).turn = .respond ∧ s.inflight ≠ [])) ∨
    (∃ q qs r, (nextSlot s).rst = false ∧ (nextSlot s).turn = .respond ∧ s.inflight = q :: qs ∧ t.inflight = qs ∧
      t.rsp = some r ∧ t.delivered = s.delivered ++ [(q, r)])

/-- Responses come in acceptance order, one per accepted request (R184): outside reset, a step changes the sequence of the answered
requests followed by the waiting ones only by adding an accepted request at its end. -/
def Obligations.ResponsesComeInAcceptanceOrder : Prop :=
  ∀ s t : State, step s = .next t → (nextSlot s).rst = false →
    (t.program = s.program ∧
      t.delivered.map Prod.fst ++ t.inflight = s.delivered.map Prod.fst ++ s.inflight) ∨
    (∃ q, offer s = .request q ∧ t.program = s.program.tail ∧
      t.delivered.map Prod.fst ++ t.inflight = s.delivered.map Prod.fst ++ s.inflight ++ [q])

/-! ## Frames and independence -/

/-- The frame of all nine operations (R51, R165): an operation answers its own request and leaves the tables, TBL_READY, INFLIGHT and
the requester's lists as they were. -/
def Obligations.OperationsChangeOnlyTheResponse : Prop :=
  ∀ (i : Instr) (s t : State), exec i s = .next t →
    t.tblReady = s.tblReady ∧ t.inflight = s.inflight ∧ t.program = s.program ∧ t.schedule = s.schedule ∧
    (∀ k : Nat, k < 512 → t.base[k]? = s.base[k]? ∧ t.shift[k]? = s.shift[k]?) ∧
    ∃ r, t.rsp = some r ∧ t.delivered = s.delivered ++ [({ op := i.opCode, a := i.operand }, r)]

/-- The response to a request depends on the tables only, and but for truncsfhf2 not even on them (R53, R90, R144). -/
def Obligations.ResponsesDependOnTablesOnly : Prop :=
  ∀ (i : Instr) (s t u : State), exec i s = .next t →
    ((∃ a, i = .truncsfhf2 a) → s.base = u.base ∧ s.shift = u.shift) →
    ∃ v, exec i u = .next v ∧ v.rsp = t.rsp

/-- Operand bits above the slice are ignored (R62), and the two unsupported operations read no bit at all (R120, R121). -/
def Obligations.OperandBitsAboveSliceAreIgnored : Prop :=
  ∀ (a b : OperandWord) (s : State),
    (a.extractLsb' 0 16 = b.extractLsb' 0 16 →
      ∀ t u, exec (.extendhfsf2 a) s = .next t → exec (.extendhfsf2 b) s = .next u → t.rsp = u.rsp) ∧
    (a.extractLsb' 0 32 = b.extractLsb' 0 32 →
      ∀ t u, exec (.extendsfdf2 a) s = .next t → exec (.extendsfdf2 b) s = .next u → t.rsp = u.rsp) ∧
    (a.extractLsb' 0 32 = b.extractLsb' 0 32 →
      ∀ t u, exec (.truncsfhf2 a) s = .next t → exec (.truncsfhf2 b) s = .next u → t.rsp = u.rsp) ∧
    (∀ t u, exec (.truncdfhf2 a) s = .next t → exec (.truncdfhf2 b) s = .next u → t.rsp = u.rsp) ∧
    (∀ t u, exec (.truncdfsf2 a) s = .next t → exec (.truncdfsf2 b) s = .next u → t.rsp = u.rsp)

/-- Result bits above the result slice are 0 (R63). -/
def Obligations.ResultBitsAboveSliceAreZero : Prop :=
  ∀ (a : OperandWord) (s t : State) (r : ResultWord), t.rsp = some (.ok r) →
    (exec (.extendhfsf2 a) s = .next t → r.toNat < 2 ^ 32) ∧
    (exec (.truncsfhf2 a) s = .next t → r.toNat < 2 ^ 16) ∧
    (exec (.floattisf a) s = .next t → r.toNat < 2 ^ 32) ∧
    (exec (.floatuntisf a) s = .next t → r.toNat < 2 ^ 32)

/-! ## Widening -/

/-- extendhfsf2 (R88), case by case on the fields of h = a[15:0]; it completes on every operand in every state. -/
def Obligations.ExtendhfsfResultByCase : Prop :=
  ∀ (a : OperandWord) (s : State), ∃ r : Single,
    exec (.extendhfsf2 a) s = .next (answered 0x0#4 a (.ok (r.setWidth 64)) s) ∧
    (let h := a.toNat % 2 ^ 16
     let S := h / 2 ^ 15 * 2 ^ 31
     let e := h / 2 ^ 10 % 2 ^ 5
     let m := h % 2 ^ 10
     (e = 0 → m = 0 → r.toNat = S) ∧
     (e = 0 → ∀ p : Nat, 2 ^ p ≤ m → m < 2 ^ (p + 1) → r.toNat = S + (p + 103) * 2 ^ 23 + (m - 2 ^ p) * 2 ^ (23 - p)) ∧
     (0 < e → e < 0x1F → r.toNat = S + (e + 112) * 2 ^ 23 + m * 2 ^ 13) ∧
     (e = 0x1F → m = 0 → r.toNat = S + 0x7F800000) ∧
     (e = 0x1F → m ≠ 0 → r.toNat = S + 0x7F800000 + m * 2 ^ 13))

/-- extendsfdf2 (R89), case by case on the fields of f = a[31:0]; it completes on every operand in every state. -/
def Obligations.ExtendsfdfResultByCase : Prop :=
  ∀ (a : OperandWord) (s : State), ∃ r : Double,
    exec (.extendsfdf2 a) s = .next (answered 0x1#4 a (.ok r) s) ∧
    (let f := a.toNat % 2 ^ 32
     let S := f / 2 ^ 31 * 2 ^ 63
     let e := f / 2 ^ 23 % 2 ^ 8
     let m := f % 2 ^ 23
     (e = 0 → m = 0 → r.toNat = S) ∧
     (e = 0 → ∀ p : Nat, 2 ^ p ≤ m → m < 2 ^ (p + 1) → r.toNat = S + (p + 874) * 2 ^ 52 + (m - 2 ^ p) * 2 ^ (52 - p)) ∧
     (0 < e → e < 0xFF → r.toNat = S + (e + 896) * 2 ^ 52 + m * 2 ^ 29) ∧
     (e = 0xFF → m = 0 → r.toNat = S + 0x7FF0000000000000) ∧
     (e = 0xFF → m ≠ 0 → r.toNat = S + 0x7FF0000000000000 + m * 2 ^ 29))

/-- Widening is exact (R87; derived, from R82 to R84). The value formula is R18, which the spec marks as general knowledge (log 12). -/
def Obligations.WideningKeepsValueAndSign : Prop :=
  (∀ h : Half, isFinite .half h.toNat →
    isFinite .single (widenHalf h).toNat ∧ value .single (widenHalf h).toNat = value .half h.toNat ∧
    signOf .single (widenHalf h).toNat = signOf .half h.toNat) ∧
  (∀ f : Single, isFinite .single f.toNat →
    isFinite .double (widenSingle f).toNat ∧ value .double (widenSingle f).toNat = value .single f.toNat ∧
    signOf .double (widenSingle f).toNat = signOf .single f.toNat)

/-- Infinities widen to infinities and NaNs to NaNs of the same sign, with the payload left-justified and the quiet bit not forced
(R85, R86). -/
def Obligations.WideningKeepsInfinitiesAndNaNs : Prop :=
  (∀ h : Half,
    (isInfinity .half h.toNat → isInfinity .single (widenHalf h).toNat ∧
      signOf .single (widenHalf h).toNat = signOf .half h.toNat) ∧
    (isNaN .half h.toNat → isNaN .single (widenHalf h).toNat ∧
      signOf .single (widenHalf h).toNat = signOf .half h.toNat ∧
      mantOf .single (widenHalf h).toNat = mantOf .half h.toNat * 2 ^ 13 ∧
      (widenHalf h).getLsbD 22 = h.getLsbD 9)) ∧
  (∀ f : Single,
    (isInfinity .single f.toNat → isInfinity .double (widenSingle f).toNat ∧
      signOf .double (widenSingle f).toNat = signOf .single f.toNat) ∧
    (isNaN .single f.toNat → isNaN .double (widenSingle f).toNat ∧
      signOf .double (widenSingle f).toNat = signOf .single f.toNat ∧
      mantOf .double (widenSingle f).toNat = mantOf .single f.toNat * 2 ^ 29 ∧
      (widenSingle f).getLsbD 51 = f.getLsbD 22))

/-! ## Narrowing -/

/-- truncsfhf2 answers every operand once the tables are built (R110), with `narrowSingle` of a[31:0]; and it stops, by name, on an
entry that holds no value (R30). -/
def Obligations.TruncsfhfAnswersOnceTablesAreBuilt : Prop :=
  ∀ (a : OperandWord) (s : State),
    (TablesBuilt s → exec (.truncsfhf2 a) s =
      .next (answered 0x2#4 a (.ok ((narrowSingle (a.extractLsb' 0 32)).setWidth 64)) s)) ∧
    (TablesUnset s → exec (.truncsfhf2 a) s = .fault (.tableEntryUnset (a.extractLsb' 23 9)))

/-- truncsfhf2 on whatever entries the tables hold at its key, f[31:23] (R100 to R105). -/
def Obligations.TruncsfhfFollowsItsTableEntries : Prop :=
  ∀ (a : OperandWord) (s : State) (b : BaseWord) (sh : ShiftWord),
    s.base[a.toNat / 2 ^ 23 % 512]? = some (some b) → s.shift[a.toNat / 2 ^ 23 % 512]? = some (some sh) → 1 ≤ sh.toNat →
    ∃ r : Half, exec (.truncsfhf2 a) s = .next (answered 0x2#4 a (.ok (r.setWidth 64)) s) ∧
      (let m := a.toNat % 2 ^ 23
       let h := (b.toNat + m / 2 ^ sh.toNat) % 2 ^ 16
       let half := 2 ^ (sh.toNat - 1)
       r.toNat = if m / half % 2 = 1 ∧ (h % 2 = 1 ∨ m % half ≠ 0) then (h + 1) % 2 ^ 16 else h)

/-- The outcomes of truncsfhf2 by key class (R106; derived, from R100 to R105 and R27), on the tables of TableInit: what is dropped is rounded to nearest, ties to even. -/
def Obligations.TruncsfhfResultByKeyClass : Prop :=
  ∀ (a : OperandWord) (s : State), TablesBuilt s → ∃ r : Half,
    exec (.truncsfhf2 a) s = .next (answered 0x2#4 a (.ok (r.setWidth 64)) s) ∧
    (let f := a.toNat % 2 ^ 32
     let S := f / 2 ^ 31 * 2 ^ 15
     let E := f / 2 ^ 23 % 2 ^ 8
     let m := f % 2 ^ 23
     let up := fun (kept dropped unit : Nat) =>
       if unit < 2 * dropped ∨ (2 * dropped = unit ∧ kept % 2 = 1) then 1 else 0
     (E ≤ 0x66 → r.toNat = S) ∧
     (0x67 ≤ E → E ≤ 0x70 → ∀ k : Nat, k = 126 - E →
       r.toNat = S + (2 ^ (E - 103) + m / 2 ^ k) + up (2 ^ (E - 103) + m / 2 ^ k) (m % 2 ^ k) (2 ^ k)) ∧
     (0x71 ≤ E → E ≤ 0x8E →
       r.toNat = S + ((E - 112) * 2 ^ 10 + m / 2 ^ 13) + up (m / 2 ^ 13) (m % 2 ^ 13) (2 ^ 13)) ∧
     (0x8F ≤ E → E ≤ 0xFE → r.toNat = S + 0x7C00) ∧
     (E = 0xFF →
       r.toNat = (S + 0x7C00 + m / 2 ^ 13 + up (m / 2 ^ 13) (m % 2 ^ 13) (2 ^ 13)) % 2 ^ 16))

/-- The departure from correct rounding at exponent byte 0x66 (R107): the signed zero, where the correctly rounded result is the
smallest subnormal; the exact tie 2^-25 is rounded correctly. Derived, from R18, R19 and R106; correct rounding is log 12. -/
def Obligations.NarrowingDepartsBelowSmallestSubnormal : Prop :=
  ∀ f : Single, expOf .single f.toNat = 0x66 →
    (narrowSingle f).toNat = signOf .single f.toNat * 2 ^ 15 ∧
    (mantOf .single f.toNat ≠ 0 →
      CorrectlyRounded .half (value .single f.toNat) (signOf .single f.toNat * 2 ^ 15 + 1) ∧
      ¬ CorrectlyRounded .half (value .single f.toNat) (narrowSingle f).toNat) ∧
    (mantOf .single f.toNat = 0 → CorrectlyRounded .half (value .single f.toNat) (narrowSingle f).toNat)

/-- Every other finite input is correctly rounded (R20, R107; the reference is IEEE-754 rounding to nearest, ties to even, R19). Derived, from R100 to R106; correct rounding is log 12. -/
def Obligations.NarrowingIsCorrectlyRoundedElsewhere : Prop :=
  ∀ f : Single, isFinite .single f.toNat → ¬ (expOf .single f.toNat = 0x66 ∧ mantOf .single f.toNat ≠ 0) →
    CorrectlyRounded .half (value .single f.toNat) (narrowSingle f).toNat

/-- Overflow (R108; derived, from R105 and R106). The value is that of R18 (log 12). -/
def Obligations.NarrowingOverflowsFrom65520 : Prop :=
  ∀ f : Single, isFinite .single f.toNat →
    ((65520 : ℚ) ≤ |value .single f.toNat| ↔ 0x477FF000 ≤ f.toNat % 2 ^ 31) ∧
    (0x477FF000 ≤ f.toNat % 2 ^ 31 → (narrowSingle f).toNat = signOf .single f.toNat * 2 ^ 15 + 0x7C00) ∧
    (f.toNat % 2 ^ 31 < 0x477FF000 → isFinite .half (narrowSingle f).toNat)

/-- Infinity and NaN inputs (R109; derived, from R100 to R105): the four rows. -/
def Obligations.NarrowingOfInfinityAndNaN : Prop :=
  ∀ f : Single, expOf .single f.toNat = 0xFF →
    let m := f.toNat % 2 ^ 23
    let inf := signOf .single f.toNat * 2 ^ 15 + 0x7C00
    (m ≤ 0x001000 → (narrowSingle f).toNat = inf) ∧
    (0x001001 ≤ m → m ≤ 0x7FEFFF → isNaN .half (narrowSingle f).toNat ∧
      (narrowSingle f).toNat = inf + m / 2 ^ 13 +
        (if f.getLsbD 12 = true ∧ (f.getLsbD 13 = true ∨ m % 2 ^ 12 ≠ 0) then 1 else 0)) ∧
    (0x7FF000 ≤ m → (narrowSingle f).toNat = if signOf .single f.toNat = 0 then 0x8000 else 0x0000)

/-- The round trip (R111; derived, from R88 and R100 to R109). -/
def Obligations.HalfRoundTripsThroughSingle : Prop := ∀ h : Half, narrowSingle (widenHalf h) = h

/-- Sign preservation and its exception (R112; derived, from R106 to R109). -/
def Obligations.NarrowingKeepsSignExceptWrappingNaNs : Prop :=
  ∀ f : Single,
    (¬ (expOf .single f.toNat = 0xFF ∧ 0x7FF000 ≤ mantOf .single f.toNat) →
      (narrowSingle f).getLsbD 15 = f.getLsbD 31) ∧
    (expOf .single f.toNat = 0xFF → 0x7FF000 ≤ mantOf .single f.toNat →
      (narrowSingle f).getLsbD 15 = !f.getLsbD 31)

/-- Ties go to even (R113): a value halfway between two adjacent binary16 values, or of magnitude 65520, gives a result whose low
bit is 0. Derived, from R105 to R108; the value is that of R18 (log 12). -/
def Obligations.NarrowingTiesGoToEven : Prop :=
  (∀ (f : Single) (lo hi : Nat), isFinite .single f.toNat → lo < 2 ^ 16 → hi < 2 ^ 16 →
    isFinite .half lo → isFinite .half hi → value .half lo < value .half hi →
    (∀ c : Nat, c < 2 ^ 16 → isFinite .half c → ¬ (value .half lo < value .half c ∧ value .half c < value .half hi)) →
    2 * value .single f.toNat = value .half lo + value .half hi → (narrowSingle f).getLsbD 0 = false) ∧
  (∀ f : Single, isFinite .single f.toNat → |value .single f.toNat| = 65520 → (narrowSingle f).getLsbD 0 = false) ∧
  narrowSingle 0x3F801000#32 = 0x3C00#16 ∧ narrowSingle 0x3F803000#32 = 0x3C02#16

/-! ## Integers to floats -/

/-- The two signed conversions complete on every operand, in every state, with the correctly rounded value of the two's-complement
integer (R20, R132 to R138). What correct rounding means is log 12. -/
def Obligations.SignedIntegersAreCorrectlyRounded : Prop :=
  ∀ (a : OperandWord) (s : State), ∃ (r : Single) (d : Double),
    exec (.floattisf a) s = .next (answered 0x5#4 a (.ok (r.setWidth 64)) s) ∧
    exec (.floattidf a) s = .next (answered 0x6#4 a (.ok d) s) ∧
    CorrectlyRounded .single (a.toInt : ℚ) r.toNat ∧ CorrectlyRounded .double (a.toInt : ℚ) d.toNat

/-- The two unsigned conversions complete on every operand, in every state, with the correctly rounded value of the unsigned integer
(R20, R132 to R138). What correct rounding means is log 12. -/
def Obligations.UnsignedIntegersAreCorrectlyRounded : Prop :=
  ∀ (a : OperandWord) (s : State), ∃ (r : Single) (d : Double),
    exec (.floatuntisf a) s = .next (answered 0x7#4 a (.ok (r.setWidth 64)) s) ∧
    exec (.floatuntidf a) s = .next (answered 0x8#4 a (.ok d) s) ∧
    CorrectlyRounded .single (a.toNat : ℚ) r.toNat ∧ CorrectlyRounded .double (a.toNat : ℚ) d.toNat

/-- Zero gives +0 in all four conversions (R131). -/
def Obligations.IntegerZeroGivesPositiveZero : Prop :=
  ∀ s : State,
    exec (.floattisf 0#128) s = .next (answered 0x5#4 0#128 (.ok 0#64) s) ∧
    exec (.floattidf 0#128) s = .next (answered 0x6#4 0#128 (.ok 0#64) s) ∧
    exec (.floatuntisf 0#128) s = .next (answered 0x7#4 0#128 (.ok 0#64) s) ∧
    exec (.floatuntidf 0#128) s = .next (answered 0x8#4 0#128 (.ok 0#64) s)

/-- Magnitudes of at most M + 1 bits convert exactly (R134, R144). The value is that of R18 (log 12). -/
def Obligations.ShortIntegersConvertExactly : Prop :=
  ∀ X : BitVec 128,
    (X.toNat < 2 ^ 24 → value .single (intToSingle false X).toNat = X.toNat) ∧
    (X.toNat < 2 ^ 53 → value .double (intToDouble false X).toNat = X.toNat) ∧
    (X.toInt.natAbs < 2 ^ 24 → value .single (intToSingle true X).toNat = X.toInt) ∧
    (X.toInt.natAbs < 2 ^ 53 → value .double (intToDouble true X).toNat = X.toInt)

/-- An integer of n bits whose top M + 2 bits are all 1 rounds up to the power of two 2^n: the carry of the rounding reaches the
exponent field and leaves mantissa 0 (R135, R138; X14 of spec/95_test_vectors.md). -/
def Obligations.LeadingOnesCarryIntoTheExponent : Prop :=
  ∀ (X : BitVec 128) (n : Nat), X.toNat < 2 ^ n → n ≤ 128 →
    (25 ≤ n → 2 ^ n - 2 ^ (n - 25) ≤ X.toNat → (intToSingle false X).toNat = (n + 127) * 2 ^ 23) ∧
    (54 ≤ n → 2 ^ n - 2 ^ (n - 54) ≤ X.toNat → (intToDouble false X).toNat = (n + 1023) * 2 ^ 52)

/-- The range of the four conversions (R139): +infinity exactly for unsigned X ≥ 2^128 - 2^103 to float32, no other infinity, and no
NaN or subnormal. Derived, from R133 to R138. -/
def Obligations.IntegerResultRange : Prop :=
  ∀ X : BitVec 128,
    (isInfinity .single (intToSingle false X).toNat ↔ 2 ^ 128 - 2 ^ 103 ≤ X.toNat) ∧
    (2 ^ 128 - 2 ^ 103 ≤ X.toNat → intToSingle false X = 0x7F800000#32) ∧
    intToSingle false 0xFFFFFF7FFFFFFFFFFFFFFFFFFFFFFFFF#128 = 0x7F7FFFFF#32 ∧
    (intToSingle true X).toNat % 2 ^ 31 ≤ 0x7F000000 ∧ intToSingle true (BitVec.ofNat 128 (2 ^ 127)) = 0xFF000000#32 ∧
    (intToDouble false X).toNat ≤ 0x47F0000000000000 ∧ (intToDouble true X).toNat % 2 ^ 63 ≤ 0x47F0000000000000 ∧
    intToDouble false (BitVec.ofNat 128 (2 ^ 128 - 1)) = 0x47F0000000000000#64 ∧
    (∀ sg : Bool, ¬ isNaN .single (intToSingle sg X).toNat ∧ ¬ isNaN .double (intToDouble sg X).toNat ∧
      (expOf .single (intToSingle sg X).toNat = 0 → mantOf .single (intToSingle sg X).toNat = 0) ∧
      (expOf .double (intToDouble sg X).toNat = 0 → mantOf .double (intToDouble sg X).toNat = 0))

/-! ## The invariant and whole runs -/

/-- The invariant holds right after reset. -/
def Obligations.ResetStateMeetsTheInvariant : Prop := MachineInv State.reset

/-- Every step keeps the invariant: once TBL_READY is 1 the tables hold TableInit, while it is 0 no entry holds a value and nothing
is in flight, INFLIGHT never holds more than MAX_OUTSTANDING requests, and every delivered response is the one the spec gives its
request (R24, R25, R30, R31, R53). -/
def Obligations.EveryStepKeepsTheInvariant : Prop := ∀ s t : State, MachineInv s → step s = .next t → MachineInv t

/-- Runs from a state that meets the invariant never stop on a table entry and never refuse: the only stop is the host reading
`rsp_r` of a response that has no result (R163, R187, D26, U2). -/
def Obligations.RunsStopOnlyOnReadingAMissingResult : Prop :=
  ∀ (s : State) (n : Nat), MachineInv s →
    (∀ r, runSteps n s = .fault r → ∃ k, r = .resultHasNoValue k) ∧
    (∀ r, runSteps n s ≠ .refused r) ∧
    (literalProgram s.program = true → SafeRun s)

/-- Termination (R189), under the fairness the model has (log 4): whatever the schedule, resets included, after it
the unit becomes ready and accepts and answers everything, within a number of steps that the state gives. -/
def Obligations.EveryRunBecomesQuiescent : Prop :=
  ∀ s : State, MachineInv s → literalProgram s.program = true →
    ∃ t, runSteps
        (s.schedule.length + 1 + s.inflight.length + 2 * s.program.length) s = .next t ∧
      Quiescent t ∧ t.program = [] ∧ t.schedule = [] ∧ MachineInv t

/-- Whatever the interleaving and whatever MAX_OUTSTANDING is, a run without reset answers every request, in the order in which the
requester presents them, with the response the spec gives the request alone (R53, R184, R190). -/
def Obligations.EveryScheduleGivesTheSameObservation : Prop :=
  ∀ s : State, MachineInv s → literalProgram s.program = true → (∀ slot ∈ s.schedule, slot.rst = false) →
    ∃ t, runSteps
        (s.schedule.length + 1 + s.inflight.length + 2 * s.program.length) s = .next t ∧
      t.delivered = s.delivered ++
        (s.inflight ++ literalRequests s.program).map (fun q => (q, specResponse q))

/-- LATENCY and INIT_STEPS are free (R8, in the form of log 3): any number of steps that is at least 1 can pass before initialisation, and before the
response to a request. -/
def Obligations.LatencyAndInitStepsAreFree : Prop :=
  ∀ (n : Nat) (s : State), 1 ≤ n →
    (s.tblReady = false → s.inflight = [] →
      s.schedule = List.replicate (n - 1) { rst := false, turn := .respond } ++ [{ rst := false, turn := .init }] →
      (∀ j : Nat, j < n → ∃ t, runSteps j s = .next t ∧ t.tblReady = false) ∧
      ∃ t, runSteps n s = .next t ∧ t.tblReady = true) ∧
    (∀ q : Request, s.tblReady = true → TablesBuilt s → s.inflight = [q] →
      s.schedule = List.replicate (n - 1) { rst := false, turn := .init } ++ [{ rst := false, turn := .respond }] →
      (∀ j : Nat, j < n → ∃ t, runSteps j s = .next t ∧ t.delivered = s.delivered) ∧
      ∃ t, runSteps n s = .next t ∧ t.delivered = s.delivered ++ [(q, specResponse q)])

/-- A quiescent unit whose requester has no line left stays as it is (R190; the step with no schedule left is
log 4). -/
def Obligations.QuiescentUnitStaysQuiescent : Prop :=
  ∀ s : State, Quiescent s → s.program = [] → s.schedule = [] → step s = .next { s with rsp := none }
end

