-- ==== Sys2Proof/Laws/Bits.lean ====
section
/-! SUPPORT. The arithmetic primitives: fields, bit lengths, the lowest set bit, and the mantissa of the integer engine. -/

namespace Sys2Proof.Machine

/-! ### Fields -/

theorem field_eq (v hi lo : Nat) : field v hi lo = v / 2 ^ lo % 2 ^ (hi - lo + 1) := by
  simp [field, Nat.shiftRight_eq_div_pow]

theorem field_lt (v hi lo : Nat) : field v hi lo < 2 ^ (hi - lo + 1) := Nat.mod_lt _ (by positivity)

/-- The sign bit is 0 or 1. -/
theorem signOf_lt (f : Format) (v : Nat) : signOf f v < 2 := by
  have h := field_lt v (f.E + f.M) (f.E + f.M)
  rw [Nat.sub_self] at h
  exact h

/-! ### Bit length -/

@[simp] theorem bitlen_zero : bitlen 0 = 0 := rfl

theorem bitlen_of_ne_zero {x : Nat} (h : x ≠ 0) : bitlen x = Nat.log2 x + 1 := by simp [bitlen, h]

/-- `bitlen x` bits are enough, and no fewer are. -/
theorem bitlen_le_iff (x n : Nat) : bitlen x ≤ n ↔ x < 2 ^ n := by
  by_cases h : x = 0
  · simp [h]
  · rw [bitlen_of_ne_zero h, ← Nat.log2_lt h]; omega

theorem lt_two_pow_bitlen (x : Nat) : x < 2 ^ bitlen x := (bitlen_le_iff x _).mp le_rfl

theorem bitlen_pos {x : Nat} (h : x ≠ 0) : 0 < bitlen x := by rw [bitlen_of_ne_zero h]; omega

/-- The leading 1 of x stands at bit `bitlen x - 1`. -/
theorem two_pow_bitlen_sub_one_le {x : Nat} (h : x ≠ 0) : 2 ^ (bitlen x - 1) ≤ x := by
  have hp := bitlen_pos h
  by_contra hlt
  have := (bitlen_le_iff x (bitlen x - 1)).mpr (by omega)
  omega

/-! ### The lowest set bit -/

/-- Where x has a bit among its low `fuel` bits, `lowestSet` gives the lowest one. -/
theorem lowestSet_spec (fuel : Nat) : ∀ x : Nat, x ≠ 0 → x < 2 ^ fuel →
    2 ^ lowestSet fuel x ∣ x ∧ x / 2 ^ lowestSet fuel x % 2 = 1 := by
  induction fuel with
  | zero => intro x h0 h1; simp at h1; exact absurd h1 h0
  | succ fuel ih =>
    intro x h0 h1
    unfold lowestSet
    split
    · case isTrue h => simpa using h
    · case isFalse h =>
      have hx : x / 2 ≠ 0 := by omega
      obtain ⟨⟨c, hc⟩, hodd⟩ := ih (x / 2) hx (by rw [pow_succ] at h1; omega)
      constructor
      · exact ⟨c, by rw [pow_succ]; rw [mul_assoc, mul_comm 2 c, ← mul_assoc, ← hc]; omega⟩
      · rw [pow_succ, mul_comm, ← Nat.div_div_eq_div_mul]; exact hodd

/-- `ctz x = k` says that the bits of x below bit k are 0 and bit k is 1. -/
theorem ctz_eq_iff {x : Nat} (h0 : x ≠ 0) (h1 : x < 2 ^ 128) (k : Nat) :
    ctz x = k ↔ 2 ^ k ∣ x ∧ x / 2 ^ k % 2 = 1 := by
  obtain ⟨hd, ho⟩ := lowestSet_spec 128 x h0 h1
  change 2 ^ ctz x ∣ x at hd
  change x / 2 ^ ctz x % 2 = 1 at ho
  have key : ∀ i j : Nat, i < j → x / 2 ^ i % 2 = 1 → ¬ 2 ^ j ∣ x := by
    intro i j hij hi ⟨c, hc⟩
    obtain ⟨d, rfl⟩ := Nat.exists_eq_add_of_lt hij
    have : x / 2 ^ i = 2 * (2 ^ d * c) := by
      rw [hc, pow_succ, pow_add]
      rw [show 2 ^ i * 2 ^ d * 2 * c = 2 ^ i * (2 * (2 ^ d * c)) by ring]
      exact Nat.mul_div_cancel_left _ (by positivity)
    omega
  constructor
  · rintro rfl; exact ⟨hd, ho⟩
  · rintro ⟨hk, hk'⟩
    rcases lt_trichotomy (ctz x) k with h | h | h
    · exact absurd hk (key _ _ h ho)
    · exact h
    · exact absurd hd (key _ _ h hk')

/-! ### The mantissa of the integer engine -/

/-- The exact case (R134): the mantissa with its implicit bit is x moved up to M + 1 bits. -/
theorem roundedMantissa_exact {M x : Nat} (h0 : x ≠ 0) (hn : bitlen x ≤ M + 1) :
    2 ^ M + roundedMantissa M x = x * 2 ^ (M + 1 - bitlen x) := by
  have hlo := two_pow_bitlen_sub_one_le h0
  have hhi := lt_two_pow_bitlen x
  have hp := bitlen_pos h0
  unfold roundedMantissa
  rw [if_pos hn, Nat.and_two_pow_sub_one_eq_mod, Nat.shiftLeft_eq]
  obtain ⟨k, hk⟩ : ∃ k, M + 1 = bitlen x + k := ⟨_, (Nat.add_sub_cancel' hn).symm⟩
  have hkk : M + 1 - bitlen x = k := by omega
  rw [hkk]
  have e1 : 2 ^ M = 2 ^ (bitlen x - 1) * 2 ^ k := by rw [← pow_add]; congr 1; omega
  have e2 : 2 ^ M + 2 ^ M = 2 ^ bitlen x * 2 ^ k := by
    rw [← pow_add, ← hk, pow_succ]; ring
  have h1 : 2 ^ M ≤ x * 2 ^ k := by rw [e1]; exact Nat.mul_le_mul_right _ hlo
  have h2 : x * 2 ^ k < 2 ^ M + 2 ^ M := by rw [e2]; exact Nat.mul_lt_mul_of_pos_right hhi (by positivity)
  rw [Nat.mod_eq_sub_mod h1, Nat.mod_eq_of_lt (by omega)]
  omega

/-- The rounding case (R135, R136): q, the mantissa with its implicit bit, is x in units of `u = 2^(n-M-1)`, at most half a unit
off, and even when it is exactly half a unit off. -/
theorem roundedMantissa_nearest {M x : Nat} (hM : 0 < M) (h1 : x < 2 ^ 128) (hn : M + 1 < bitlen x) :
    let u := 2 ^ (bitlen x - M - 1)
    let q := 2 ^ M + roundedMantissa M x
    2 * (q * u) ≤ 2 * x + u ∧ 2 * x ≤ 2 * (q * u) + u ∧ q ≤ 2 ^ (M + 1) ∧
    (2 * (q * u) = 2 * x + u ∨ 2 * x = 2 * (q * u) + u → q % 2 = 0) := by
  intro u q
  have h0 : x ≠ 0 := by rintro rfl; simp at hn
  have hlo := two_pow_bitlen_sub_one_le h0
  have hhi := lt_two_pow_bitlen x
  obtain ⟨k, hk⟩ : ∃ k, bitlen x = M + 2 + k := ⟨_, (Nat.add_sub_cancel' hn).symm⟩
  have hu : u = 2 ^ k * 2 := by simp only [u, hk]; rw [← pow_succ]; congr 1; omega
  -- x = t * 2^k + r, and t has its leading 1 at bit M + 1
  have hx : x = 2 ^ k * (x / 2 ^ k) + x % 2 ^ k := (Nat.div_add_mod _ _).symm
  have hr : x % 2 ^ k < 2 ^ k := Nat.mod_lt _ (by positivity)
  have ht1 : 2 ^ M * 2 ≤ x / 2 ^ k := by
    rw [Nat.le_div_iff_mul_le (by positivity), ← pow_succ, ← pow_add]
    convert hlo using 2; omega
  have ht2 : x / 2 ^ k < 2 ^ M * 4 := by
    rw [Nat.div_lt_iff_lt_mul (by positivity)]
    refine lt_of_lt_of_eq hhi ?_
    rw [hk, pow_add, pow_add]; ring
  have hMe : 2 ^ M % 2 = 0 := by
    obtain ⟨j, rfl⟩ := Nat.exists_eq_succ_of_ne_zero hM.ne'
    rw [pow_succ]; omega
  have hctz := ctz_eq_iff h0 h1 k
  have hrm : roundedMantissa M x =
      if 2 ^ k ∣ x ∧ x / 2 ^ k % 2 = 1 then ((x / 2 ^ k - 2 ^ M * 2 + 1) / 2) / 2 * 2
      else (x / 2 ^ k - 2 ^ M * 2 + 1) / 2 := by
    unfold roundedMantissa
    have hk2 : bitlen x - (M + 2) = k := by omega
    rw [if_neg (by omega), hk2]
    have hy : (x >>> k) &&& (2 ^ (M + 1) - 1) = x / 2 ^ k - 2 ^ M * 2 := by
      rw [Nat.and_two_pow_sub_one_eq_mod, Nat.shiftRight_eq_div_pow, pow_succ,
        Nat.mod_eq_sub_mod ht1, Nat.mod_eq_of_lt (by omega)]
    simp only [hy, Nat.shiftRight_one]
    by_cases hc : ctz x = k
    · rw [if_pos hc, if_pos (hctz.mp hc)]
      generalize hz : (x / 2 ^ k - 2 ^ M * 2 + 1) / 2 = z
      have hz2 : z < 2 ^ (M + 1) := by rw [pow_succ]; omega
      have hmask : (2 ^ (M + 1) - 1 - 1) = (2 ^ M - 1) * 2 := by rw [pow_succ]; omega
      apply Nat.eq_of_testBit_eq
      intro i
      rw [hmask, Nat.testBit_and]
      have e : ∀ w, (w * 2).testBit i = (decide (1 ≤ i) && w.testBit (i - 1)) := by
        intro w
        rw [show w * 2 = 2 ^ 1 * w by ring, Nat.testBit_two_pow_mul]
      rw [e, e, Nat.testBit_two_pow_sub_one, Nat.testBit_div_two]
      cases i with
      | zero => simp
      | succ i =>
        simp only [Nat.succ_le_succ_iff, Nat.zero_le, decide_true, Bool.true_and, Nat.succ_sub_one]
        by_cases hi : i < M
        · simp [hi]
        · have : z.testBit (i + 1) = false := Nat.testBit_lt_two_pow (lt_of_lt_of_le hz2 (Nat.pow_le_pow_right (by omega) (by omega)))
          simp [this]
    · rw [if_neg hc, if_neg (fun h => hc (hctz.mpr h))]
  have hM4 : 2 ^ (M + 1) = 2 ^ M * 2 := pow_succ 2 M
  by_cases hc : 2 ^ k ∣ x ∧ x / 2 ^ k % 2 = 1
  · -- exact tie
    have hr0 : x % 2 ^ k = 0 := Nat.mod_eq_zero_of_dvd hc.1
    rw [if_pos hc] at hrm
    rw [hr0, add_zero] at hx
    have hodd := hc.2
    have hcase : 2 * q = x / 2 ^ k + 1 ∨ 2 * q + 1 = x / 2 ^ k := by simp only [q, hrm]; omega
    have hq2 : q % 2 = 0 := by simp only [q, hrm]; omega
    have hqle : q ≤ 2 ^ (M + 1) := by simp only [q, hrm]; omega
    generalize x / 2 ^ k = t at *
    have e1 : 2 * (q * u) = 2 * q * 2 ^ k * 2 := by rw [hu]; ring
    have e2 : 2 * x = t * 2 ^ k * 2 := by rw [hx]; ring
    refine ⟨?_, ?_, hqle, fun _ => hq2⟩
    · rw [e1, e2, hu]
      rcases hcase with h | h
      · rw [h]; nlinarith [Nat.zero_le (2 ^ k)]
      · rw [← h]; nlinarith [Nat.zero_le (2 ^ k)]
    · rw [e1, e2, hu]
      rcases hcase with h | h
      · rw [h]; nlinarith [Nat.zero_le (2 ^ k)]
      · rw [← h]; nlinarith [Nat.zero_le (2 ^ k)]
  · rw [if_neg hc] at hrm
    have hqle : q ≤ 2 ^ (M + 1) := by simp only [q, hrm]; omega
    by_cases hodd : x / 2 ^ k % 2 = 1
    · -- the guard bit is 1 and a bit below it is set: up
      have hrpos : 0 < x % 2 ^ k := Nat.pos_of_ne_zero fun h => hc ⟨Nat.dvd_of_mod_eq_zero h, hodd⟩
      have hq : 2 * q = x / 2 ^ k + 1 := by simp only [q, hrm]; omega
      generalize x / 2 ^ k = t at *
      generalize x % 2 ^ k = r at *
      have e1 : 2 * (q * u) = 2 * (2 ^ k * t) + 2 * 2 ^ k := by
        rw [hu, show 2 * (q * (2 ^ k * 2)) = 2 * q * 2 ^ k * 2 by ring, hq]; ring
      generalize 2 ^ k * t = a at *
      refine ⟨?_, ?_, hqle, ?_⟩ <;> rw [e1, hu] <;> omega
    · -- the guard bit is 0: down
      have hq : 2 * q = x / 2 ^ k := by simp only [q, hrm]; omega
      generalize x / 2 ^ k = t at *
      generalize x % 2 ^ k = r at *
      have e1 : 2 * (q * u) = 2 * (2 ^ k * t) := by
        rw [hu, show 2 * (q * (2 ^ k * 2)) = 2 * q * 2 ^ k * 2 by ring, hq]; ring
      generalize 2 ^ k * t = a at *
      refine ⟨?_, ?_, hqle, ?_⟩ <;> rw [e1, hu] <;> omega

end Sys2Proof.Machine
end

