-- ==== Sys2Proof/Laws/Rounding.lean ====
section
/-! SUPPORT. Values of float patterns and rounding to nearest: the fields of a composed pattern, the grid on which the values of a
binade lie, a criterion for `NearestEven`, and the symmetry of signs. -/

namespace Sys2Proof.Machine

/-- A format with a non-empty exponent field and a non-empty mantissa field. -/
abbrev Proper (f : Format) : Prop := 0 < f.E ∧ 0 < f.M

/-! ### Fields of a composed pattern -/

theorem signOf_eq (f : Format) (v : Nat) : signOf f v = v / 2 ^ (f.E + f.M) % 2 := by
  simp [signOf, field_eq]

theorem expOf_eq {f : Format} (hf : Proper f) (v : Nat) : expOf f v = v / 2 ^ f.M % 2 ^ f.E := by
  have := hf.1
  rw [expOf, field_eq, show f.E + f.M - 1 - f.M + 1 = f.E by omega]

theorem mantOf_eq {f : Format} (hf : Proper f) (v : Nat) : mantOf f v = v % 2 ^ f.M := by
  have := hf.2
  rw [mantOf, field_eq, show f.M - 1 - 0 + 1 = f.M by omega, pow_zero, Nat.div_one]

/-- The pattern of three fields. -/
def compose (f : Format) (s e m : Nat) : Nat := s * 2 ^ (f.E + f.M) + e * 2 ^ f.M + m

theorem compose_low_lt {f : Format} {e m : Nat} (he : e < 2 ^ f.E) (hm : m < 2 ^ f.M) :
    e * 2 ^ f.M + m < 2 ^ (f.E + f.M) := by
  have h : (e + 1) * 2 ^ f.M ≤ 2 ^ f.E * 2 ^ f.M := Nat.mul_le_mul_right _ he
  rw [pow_add]; rw [Nat.add_mul] at h; omega

theorem compose_lt {f : Format} {s e m : Nat} (hs : s < 2) (he : e < 2 ^ f.E) (hm : m < 2 ^ f.M) :
    compose f s e m < 2 ^ fmtWidth f := by
  have h := compose_low_lt he hm
  have h2 : s * 2 ^ (f.E + f.M) ≤ 1 * 2 ^ (f.E + f.M) := Nat.mul_le_mul_right _ (by omega)
  unfold compose
  rw [fmtWidth, show 1 + f.E + f.M = f.E + f.M + 1 by omega, pow_succ]; omega

theorem signOf_compose {f : Format} {s e m : Nat} (hs : s < 2) (he : e < 2 ^ f.E) (hm : m < 2 ^ f.M) :
    signOf f (compose f s e m) = s := by
  have h := compose_low_lt he hm
  rw [signOf_eq, compose, show s * 2 ^ (f.E + f.M) + e * 2 ^ f.M + m = (e * 2 ^ f.M + m) + 2 ^ (f.E + f.M) * s by ring,
    Nat.add_mul_div_left _ _ (by positivity), Nat.div_eq_of_lt h, zero_add, Nat.mod_eq_of_lt hs]

theorem expOf_compose {f : Format} (hf : Proper f) {s e m : Nat} (he : e < 2 ^ f.E) (hm : m < 2 ^ f.M) :
    expOf f (compose f s e m) = e := by
  rw [expOf_eq hf, compose, show s * 2 ^ (f.E + f.M) + e * 2 ^ f.M + m = m + 2 ^ f.M * (e + 2 ^ f.E * s) by rw [pow_add]; ring,
    Nat.add_mul_div_left _ _ (by positivity), Nat.div_eq_of_lt hm, zero_add, Nat.add_mul_mod_self_left, Nat.mod_eq_of_lt he]

theorem mantOf_compose {f : Format} (hf : Proper f) {s e m : Nat} (hm : m < 2 ^ f.M) :
    mantOf f (compose f s e m) = m := by
  rw [mantOf_eq hf, compose, show s * 2 ^ (f.E + f.M) + e * 2 ^ f.M + m = m + 2 ^ f.M * (e + 2 ^ f.E * s) by rw [pow_add]; ring,
    Nat.add_mul_mod_self_left, Nat.mod_eq_of_lt hm]

/-- Every pattern is the composition of its fields. -/
theorem compose_fields {f : Format} (hf : Proper f) {v : Nat} (hv : v < 2 ^ fmtWidth f) :
    compose f (signOf f v) (expOf f v) (mantOf f v) = v := by
  have hs : v / 2 ^ (f.E + f.M) < 2 := by
    rw [Nat.div_lt_iff_lt_mul (by positivity)]
    rw [fmtWidth, show 1 + f.E + f.M = f.E + f.M + 1 by omega, pow_succ] at hv; omega
  have h1 : v / 2 ^ (f.E + f.M) = v / 2 ^ f.M / 2 ^ f.E := by rw [Nat.div_div_eq_div_mul, ← pow_add, add_comm f.M]
  rw [signOf_eq, expOf_eq hf, mantOf_eq hf, Nat.mod_eq_of_lt hs, compose, h1]
  have h2 := Nat.div_add_mod (v / 2 ^ f.M) (2 ^ f.E)
  have h3 := Nat.div_add_mod v (2 ^ f.M)
  rw [pow_add]
  calc v / 2 ^ f.M / 2 ^ f.E * (2 ^ f.E * 2 ^ f.M) + v / 2 ^ f.M % 2 ^ f.E * 2 ^ f.M + v % 2 ^ f.M
      = 2 ^ f.M * (2 ^ f.E * (v / 2 ^ f.M / 2 ^ f.E) + v / 2 ^ f.M % 2 ^ f.E) + v % 2 ^ f.M := by ring
    _ = v := by rw [h2, h3]

theorem mantOf_lt {f : Format} (hf : Proper f) (v : Nat) : mantOf f v < 2 ^ f.M := by
  rw [mantOf_eq hf]; exact Nat.mod_lt _ (by positivity)

theorem expOf_lt {f : Format} (hf : Proper f) (v : Nat) : expOf f v < 2 ^ f.E := by
  rw [expOf_eq hf]; exact Nat.mod_lt _ (by positivity)

/-! ### Values on a grid -/

/-- The unit of the grid of the subnormals and of the first binade. -/
def leastUnit (f : Format) : ℚ := (2 : ℚ) ^ (1 - (f.B : ℤ) - f.M)

theorem magnitude_of_subnormal {f : Format} {v : Nat} (h : expOf f v = 0) :
    magnitude f v = mantOf f v * leastUnit f := by
  rw [magnitude, if_pos h, leastUnit, zpow_sub₀ (by norm_num) (1 - (f.B : ℤ)) f.M, zpow_natCast]; ring

theorem magnitude_of_normal {f : Format} {v : Nat} (h : expOf f v ≠ 0) :
    magnitude f v = (2 ^ f.M + mantOf f v : ℕ) * (2 : ℚ) ^ ((expOf f v : ℤ) - f.B - f.M) := by
  rw [magnitude, if_neg h, zpow_sub₀ (by norm_num) ((expOf f v : ℤ) - f.B) f.M, zpow_natCast]
  push_cast
  field_simp

theorem magnitude_nonneg (f : Format) (v : Nat) : 0 ≤ magnitude f v := by
  unfold magnitude; split <;> positivity

/-- A magnitude of exponent field e is below 2^(e-B+1). -/
theorem magnitude_lt {f : Format} (hf : Proper f) {v : Nat} (h : expOf f v ≠ 0) :
    magnitude f v < (2 : ℚ) ^ ((expOf f v : ℤ) - f.B + 1) := by
  have hm := mantOf_lt hf v
  rw [magnitude_of_normal h]
  have e : (2 : ℚ) ^ ((expOf f v : ℤ) - f.B + 1) = (2 ^ (f.M + 1) : ℕ) * (2 : ℚ) ^ ((expOf f v : ℤ) - f.B - f.M) := by
    push_cast
    rw [← zpow_natCast, ← zpow_add₀ (by norm_num)]; congr 1; push_cast; ring
  rw [e]
  apply mul_lt_mul_of_pos_right _ (by positivity)
  exact_mod_cast (by rw [pow_succ]; omega : 2 ^ f.M + mantOf f v < 2 ^ (f.M + 1))

/-- Every magnitude is a multiple of the least unit. -/
theorem magnitude_on_least_grid (f : Format) (v : Nat) : ∃ k : ℕ, magnitude f v = k * leastUnit f := by
  by_cases h : expOf f v = 0
  · exact ⟨_, magnitude_of_subnormal h⟩
  · refine ⟨(2 ^ f.M + mantOf f v) * 2 ^ (expOf f v - 1), ?_⟩
    rw [magnitude_of_normal h, leastUnit]
    push_cast
    rw [mul_assoc, ← zpow_natCast (2 : ℚ) (expOf f v - 1), ← zpow_add₀ (by norm_num)]
    congr 2
    have : 1 ≤ expOf f v := by omega
    push_cast [this]; ring

/-- A magnitude of at least 2^t, for a binade 2^t that starts with normal values, is a multiple of 2^(t-M). -/
theorem magnitude_on_grid {f : Format} (hf : Proper f) {t : ℤ} (ht : 1 - (f.B : ℤ) ≤ t) {v : Nat}
    (hv : (2 : ℚ) ^ t ≤ magnitude f v) : ∃ k : ℕ, magnitude f v = k * (2 : ℚ) ^ (t - f.M) := by
  by_cases h : expOf f v = 0
  · exfalso
    have hm := mantOf_lt hf v
    have h1 : magnitude f v < (2 : ℚ) ^ (1 - (f.B : ℤ)) := by
      rw [magnitude_of_subnormal h, leastUnit]
      have e : (2 : ℚ) ^ (1 - (f.B : ℤ)) = (2 ^ f.M : ℕ) * (2 : ℚ) ^ (1 - (f.B : ℤ) - f.M) := by
        push_cast; rw [← zpow_natCast, ← zpow_add₀ (by norm_num)]; congr 1; ring
      rw [e]
      exact mul_lt_mul_of_pos_right (by exact_mod_cast hm) (by positivity)
    have h2 : (2 : ℚ) ^ (1 - (f.B : ℤ)) ≤ (2 : ℚ) ^ t := zpow_le_zpow_right₀ (by norm_num) ht
    linarith
  · have h1 := magnitude_lt hf h
    have h2 : t < (expOf f v : ℤ) - f.B + 1 := (zpow_lt_zpow_iff_right₀ (by norm_num : (1 : ℚ) < 2)).mp (lt_of_le_of_lt hv h1)
    obtain ⟨j, hj⟩ : ∃ j : ℕ, (expOf f v : ℤ) - f.B = t + j := ⟨((expOf f v : ℤ) - f.B - t).toNat, by omega⟩
    refine ⟨(2 ^ f.M + mantOf f v) * 2 ^ j, ?_⟩
    rw [magnitude_of_normal h, hj]
    push_cast
    rw [mul_assoc, ← zpow_natCast (2 : ℚ) j, ← zpow_add₀ (by norm_num)]
    congr 2; ring

theorem value_of_sign_zero {f : Format} {v : Nat} (h : signOf f v = 0) : value f v = magnitude f v := by
  simp [value, h]

theorem value_of_sign_one {f : Format} {v : Nat} (h : signOf f v = 1) : value f v = -magnitude f v := by
  simp [value, h]

theorem value_cases (f : Format) (v : Nat) :
    (signOf f v = 0 ∧ value f v = magnitude f v) ∨ (signOf f v = 1 ∧ value f v = -magnitude f v) := by
  have h := signOf_lt f v
  rcases (by omega : signOf f v = 0 ∨ signOf f v = 1) with h | h
  · exact .inl ⟨h, value_of_sign_zero h⟩
  · exact .inr ⟨h, value_of_sign_one h⟩

/-! ### A criterion for rounding to nearest -/

/-- Where every finite value from `L` on lies on the grid of unit u, `L` being on it too, a grid value at most half a unit from x is
nearest to x among all finite values, and the only one unless it is exactly half a unit off. -/
theorem nearestEven_of_grid {f : Format} {x u L : ℚ} {r : Nat} (hu : 0 < u) (hfin : isFinite f r)
    (hL : ∃ k : ℤ, L = k * u) (hLx : L ≤ x) (hv : ∃ k : ℤ, value f r = k * u)
    (hgrid : ∀ c : Nat, isFinite f c → (∃ k : ℤ, value f c = k * u) ∨ value f c < L)
    (hhalf : 2 * |value f r - x| ≤ u) (heven : 2 * |value f r - x| = u → mantOf f r % 2 = 0) :
    NearestEven f x r := by
  obtain ⟨kv, hkv⟩ := hv
  -- two different grid values are at least a unit apart
  have apart : ∀ w : ℚ, (∃ k : ℤ, w = k * u) → w ≠ value f r → u ≤ |w - value f r| := by
    rintro w ⟨k, rfl⟩ hne
    rw [hkv] at hne ⊢
    rw [← sub_mul, abs_mul, abs_of_pos hu]
    have hk : k ≠ kv := by rintro rfl; exact hne rfl
    have h1 : (1 : ℚ) ≤ |((k - kv : ℤ) : ℚ)| := by
      rw [← Int.cast_abs]; exact_mod_cast Int.one_le_abs (sub_ne_zero.mpr hk)
    push_cast at h1
    nlinarith
  -- so a grid value is no nearer, and equally near only at half a unit
  have grid : ∀ w : ℚ, (∃ k : ℤ, w = k * u) →
      |value f r - x| ≤ |w - x| ∧ (|value f r - x| = |w - x| → w ≠ value f r → 2 * |value f r - x| = u) := by
    intro w hw
    by_cases hne : w = value f r
    · subst hne; exact ⟨le_rfl, fun _ h => absurd rfl h⟩
    · have h1 := apart w hw hne
      have h2 : |w - value f r| ≤ |w - x| + |value f r - x| := by
        calc |w - value f r| = |(w - x) - (value f r - x)| := by ring_nf
          _ ≤ _ := abs_sub _ _
      exact ⟨by linarith, fun h _ => by linarith⟩
  refine ⟨hfin, fun c _ hc => ?_⟩
  rcases hgrid c hc with hcg | hcl
  · obtain ⟨h1, h2⟩ := grid _ hcg
    exact ⟨h1, fun h3 h4 => heven (h2 h3 h4)⟩
  · -- a value below L is farther from x than L is
    have h1 := (grid L hL).1
    have h2 : |L - x| < |value f c - x| := by
      rw [abs_of_nonpos (by linarith), abs_of_nonpos (by linarith)]; linarith
    exact ⟨by linarith, fun h3 _ => by linarith⟩

/-- The criterion inside a binade [2^t, 2^(t+1)] of normal values. -/
theorem nearestEven_of_binade {f : Format} (hf : Proper f) {x : ℚ} {t : ℤ} {r : Nat} (ht : 1 - (f.B : ℤ) ≤ t)
    (hfin : isFinite f r) (hx : (2 : ℚ) ^ t ≤ x) (hlo : (2 : ℚ) ^ t ≤ value f r)
    (hhalf : 2 * |value f r - x| ≤ (2 : ℚ) ^ (t - f.M))
    (heven : 2 * |value f r - x| = (2 : ℚ) ^ (t - f.M) → mantOf f r % 2 = 0) : NearestEven f x r := by
  have hpos : (0 : ℚ) < (2 : ℚ) ^ t := by positivity
  have hgrid : ∀ c : Nat, (2 : ℚ) ^ t ≤ value f c → ∃ k : ℤ, value f c = k * (2 : ℚ) ^ (t - f.M) := by
    intro c hc
    rcases value_cases f c with ⟨_, h⟩ | ⟨_, h⟩
    · rw [h] at hc
      obtain ⟨k, hk⟩ := magnitude_on_grid hf ht hc
      exact ⟨k, by rw [h, hk]; simp⟩
    · have := magnitude_nonneg f c
      rw [h] at hc; linarith
  refine nearestEven_of_grid (u := (2 : ℚ) ^ (t - f.M)) (L := (2 : ℚ) ^ t) (by positivity) hfin
    ⟨2 ^ f.M, ?_⟩ hx (hgrid r hlo) (fun c _ => ?_) hhalf heven
  · push_cast; rw [← zpow_natCast, ← zpow_add₀ (by norm_num)]; congr 1; ring
  · by_cases h : (2 : ℚ) ^ t ≤ value f c
    · exact .inl (hgrid c h)
    · exact .inr (by linarith)

/-- The criterion among the subnormals and the first binade: all values lie on the least grid. -/
theorem nearestEven_of_least {f : Format} {x : ℚ} {r : Nat} (hfin : isFinite f r) (hx : 0 ≤ x)
    (hhalf : 2 * |value f r - x| ≤ leastUnit f) (heven : 2 * |value f r - x| = leastUnit f → mantOf f r % 2 = 0) :
    NearestEven f x r := by
  have hgrid : ∀ c : Nat, ∃ k : ℤ, value f c = k * leastUnit f := by
    intro c
    obtain ⟨k, hk⟩ := magnitude_on_least_grid f c
    rcases value_cases f c with ⟨_, h⟩ | ⟨_, h⟩
    · exact ⟨k, by rw [h, hk]; simp⟩
    · exact ⟨-k, by rw [h, hk]; push_cast; ring⟩
  exact nearestEven_of_grid (L := 0) (by unfold leastUnit; positivity) hfin ⟨0, by simp⟩ hx (hgrid r)
    (fun c _ => .inl (hgrid c)) hhalf heven

/-! ### Signs -/

/-- A pattern with the other sign. -/
def flipSign (f : Format) (v : Nat) : Nat := compose f (1 - signOf f v) (expOf f v) (mantOf f v)

theorem expOf_flipSign {f : Format} (hf : Proper f) (v : Nat) : expOf f (flipSign f v) = expOf f v :=
  expOf_compose hf (expOf_lt hf v) (mantOf_lt hf v)

theorem mantOf_flipSign {f : Format} (hf : Proper f) (v : Nat) : mantOf f (flipSign f v) = mantOf f v :=
  mantOf_compose hf (mantOf_lt hf v)

theorem signOf_flipSign {f : Format} (hf : Proper f) (v : Nat) : signOf f (flipSign f v) = 1 - signOf f v :=
  signOf_compose (by omega) (expOf_lt hf v) (mantOf_lt hf v)

theorem flipSign_lt {f : Format} (hf : Proper f) (v : Nat) : flipSign f v < 2 ^ fmtWidth f :=
  compose_lt (by omega) (expOf_lt hf v) (mantOf_lt hf v)

theorem isFinite_flipSign {f : Format} (hf : Proper f) (v : Nat) : isFinite f (flipSign f v) ↔ isFinite f v := by
  unfold isFinite; rw [expOf_flipSign hf]

theorem value_flipSign {f : Format} (hf : Proper f) (v : Nat) : value f (flipSign f v) = -value f v := by
  have hm : magnitude f (flipSign f v) = magnitude f v := by
    simp only [magnitude, expOf_flipSign hf, mantOf_flipSign hf]
  rcases value_cases f v with ⟨h, hv⟩ | ⟨h, hv⟩
  · rw [value_of_sign_one (by rw [signOf_flipSign hf, h]), hm, hv]
  · rw [value_of_sign_zero (by rw [signOf_flipSign hf, h]), hm, hv, neg_neg]

/-- Rounding to nearest is symmetric in the sign. -/
theorem NearestEven.flipSign {f : Format} (hf : Proper f) {x : ℚ} {r : Nat} (h : NearestEven f x r) :
    NearestEven f (-x) (flipSign f r) := by
  obtain ⟨hfin, hn⟩ := h
  refine ⟨(isFinite_flipSign hf r).mpr hfin, fun c _ hc => ?_⟩
  obtain ⟨h1, h2⟩ := hn (Machine.flipSign f c) (flipSign_lt hf c) ((isFinite_flipSign hf c).mpr hc)
  have e : ∀ a b : ℚ, |-a - -b| = |a - b| := fun a b => by rw [neg_sub_neg, abs_sub_comm]
  have ec : |value f c - -x| = |value f (Machine.flipSign f c) - x| := by
    rw [value_flipSign hf, ← e (value f c) (-x), neg_neg]
  rw [value_flipSign hf, e, ec, mantOf_flipSign hf]
  refine ⟨h1, fun h3 h4 => h2 h3 fun h5 => h4 ?_⟩
  rw [← h5, value_flipSign hf, neg_neg]

end Sys2Proof.Machine
end

