-- ==== Sys2Proof/Laws/Conversions.lean ====
section
/-! SUPPORT. The conversions on fields: widening case by case as a composed pattern, and the table algorithm of truncsfhf2 in
arithmetic. -/

namespace Sys2Proof.Machine

theorem half_proper : Proper Format.half := ⟨by decide, by decide⟩
theorem single_proper : Proper Format.single := ⟨by decide, by decide⟩
theorem double_proper : Proper Format.double := ⟨by decide, by decide⟩

/-- OR-ing three fields in their places composes them. -/
theorem or_fields_eq_compose {f : Format} {s e m : Nat} (he : e < 2 ^ f.E) (hm : m < 2 ^ f.M) :
    s <<< (f.E + f.M) ||| e <<< f.M ||| m = compose f s e m := by
  have h := compose_low_lt he hm
  rw [Nat.or_assoc, Nat.shiftLeft_eq e, Nat.mul_comm e, ← Nat.two_pow_add_eq_or_of_lt hm, Nat.shiftLeft_eq, Nat.mul_comm s,
    ← Nat.two_pow_add_eq_or_of_lt (by rw [Nat.mul_comm]; exact h), compose]
  ring

/-- Adding the lower fields and OR-ing the sign composes them. -/
theorem or_sign_eq_compose {f : Format} {s e m : Nat} (he : e < 2 ^ f.E) (hm : m < 2 ^ f.M) :
    s <<< (f.E + f.M) ||| (e * 2 ^ f.M + m) = compose f s e m := by
  rw [Nat.shiftLeft_eq, Nat.mul_comm, ← Nat.two_pow_add_eq_or_of_lt (compose_low_lt he hm), compose]
  ring

/-! ### Widening -/

/-- Zero (R82). -/
theorem widen_zero {src dst : Format} {v : Nat} (he : expOf src v = 0) (hm : mantOf src v = 0) :
    widen src dst v = compose dst (signOf src v) 0 0 := by
  simp [widen, he, hm, compose, Nat.shiftLeft_eq]

/-- A subnormal source (R83), p being the position of the leading 1 of its mantissa. -/
theorem widen_subnormal {src dst : Format} {v : Nat} (he : expOf src v = 0) (hm : mantOf src v ≠ 0)
    (hmax : bitlen (mantOf src v) - 1 + 1 + dst.B - (src.M + src.B) < 2 ^ dst.E)
    (hp : bitlen (mantOf src v) - 1 ≤ dst.M) :
    widen src dst v = compose dst (signOf src v) (bitlen (mantOf src v) - 1 + 1 + dst.B - (src.M + src.B))
      ((mantOf src v - 2 ^ (bitlen (mantOf src v) - 1)) * 2 ^ (dst.M - (bitlen (mantOf src v) - 1))) := by
  have hlow : (mantOf src v - 2 ^ (bitlen (mantOf src v) - 1)) * 2 ^ (dst.M - (bitlen (mantOf src v) - 1)) < 2 ^ dst.M := by
    have h1 := lt_two_pow_bitlen (mantOf src v)
    have h2 := bitlen_pos hm
    obtain ⟨p, hpp⟩ : ∃ p, bitlen (mantOf src v) = p + 1 := ⟨_, (Nat.sub_add_cancel h2).symm⟩
    rw [hpp] at h1 hp ⊢
    rw [pow_succ] at h1
    simp only [Nat.add_sub_cancel] at hp ⊢
    calc (mantOf src v - 2 ^ p) * 2 ^ (dst.M - p) < 2 ^ p * 2 ^ (dst.M - p) :=
          Nat.mul_lt_mul_of_pos_right (by omega) (by positivity)
      _ = 2 ^ dst.M := by rw [← pow_add, Nat.add_sub_cancel' hp]
  rw [← or_fields_eq_compose hmax hlow]
  simp [widen, he, hm, Nat.shiftLeft_eq]

/-- A normal source (R84). -/
theorem widen_normal {src dst : Format} {v : Nat} (hs : Proper src) (h0 : expOf src v ≠ 0)
    (h1 : expOf src v ≠ 2 ^ src.E - 1) (hmax : expOf src v + dst.B - src.B < 2 ^ dst.E) (hM : src.M ≤ dst.M) :
    widen src dst v =
      compose dst (signOf src v) (expOf src v + dst.B - src.B) (mantOf src v * 2 ^ (dst.M - src.M)) := by
  have hlow : mantOf src v * 2 ^ (dst.M - src.M) < 2 ^ dst.M := by
    have := Nat.mul_lt_mul_of_pos_right (mantOf_lt hs v) (by positivity : 0 < 2 ^ (dst.M - src.M))
    rwa [← pow_add, Nat.add_sub_cancel' hM] at this
  rw [← or_fields_eq_compose hmax hlow]
  simp [widen, h0, h1, Nat.shiftLeft_eq]

/-- Infinity (R85) and NaN (R86): all ones in the exponent field, and the payload left-justified. -/
theorem widen_special {src dst : Format} {v : Nat} (hs : Proper src) (h1 : expOf src v = 2 ^ src.E - 1)
    (hM : src.M ≤ dst.M) :
    widen src dst v = compose dst (signOf src v) (2 ^ dst.E - 1) (mantOf src v * 2 ^ (dst.M - src.M)) := by
  have hlow : mantOf src v * 2 ^ (dst.M - src.M) < 2 ^ dst.M := by
    have := Nat.mul_lt_mul_of_pos_right (mantOf_lt hs v) (by positivity : 0 < 2 ^ (dst.M - src.M))
    rwa [← pow_add, Nat.add_sub_cancel' hM] at this
  have hE : 2 ^ src.E - 1 ≠ 0 := by
    obtain ⟨j, hj⟩ := Nat.exists_eq_succ_of_ne_zero hs.1.ne'
    have : 0 < 2 ^ j := by positivity
    rw [hj, pow_succ]; omega
  have hmax : 2 ^ dst.E - 1 < 2 ^ dst.E := Nat.sub_lt (by positivity) one_pos
  rw [← or_fields_eq_compose hmax hlow]
  unfold widen
  rw [h1]
  by_cases hm : mantOf src v = 0
  · simp [hE, hm, Nat.shiftLeft_eq]
  · simp [hE, hm, Nat.shiftLeft_eq]

/-! ### The table algorithm -/

/-- The table algorithm (R100 to R105) in arithmetic on the entries and the mantissa. -/
theorem narrowWith_toNat (b : BaseWord) (sh : ShiftWord) (f : Single) :
    (narrowWith b sh f).toNat =
      let m := f.toNat % 2 ^ 23
      let h := (b.toNat + m / 2 ^ sh.toNat) % 2 ^ 16
      let half := 2 ^ (sh.toNat - 1)
      if m / half % 2 = 1 ∧ (h % 2 = 1 ∨ m % half ≠ 0) then (h + 1) % 2 ^ 16 else h := by
  have e : f.toNat &&& 0x007FFFFF = f.toNat % 2 ^ 23 := Nat.and_two_pow_sub_one_eq_mod f.toNat 23
  simp only [narrowWith, e, Nat.shiftRight_eq_div_pow, Nat.and_two_pow_sub_one_eq_mod, Nat.and_one_is_mod]
  split <;> simp

/-- The key of a binary32 pattern (R101). -/
theorem tableKey_toNat (f : Single) : (tableKey f).toNat = f.toNat / 2 ^ 23 := by
  have := f.isLt
  simp only [tableKey, BitVec.extractLsb'_toNat, Nat.shiftRight_eq_div_pow]
  exact Nat.mod_eq_of_lt (by omega)

end Sys2Proof.Machine
end

