-- ==== Sys2Proof/Laws/State.lean ====
section
/-! SUPPORT. One lemma per field per update of the state, and the fields of the reset state. -/

namespace Sys2Proof.Machine

/-! ### deliver -/

@[simp] theorem deliver_tblReady (q : Request) (r : Response) (s : State) :
    (deliver q r s).tblReady = s.tblReady := rfl
@[simp] theorem deliver_base (q : Request) (r : Response) (s : State) :
    (deliver q r s).base = s.base := rfl
@[simp] theorem deliver_shift (q : Request) (r : Response) (s : State) :
    (deliver q r s).shift = s.shift := rfl
@[simp] theorem deliver_inflight (q : Request) (r : Response) (s : State) :
    (deliver q r s).inflight = s.inflight := rfl
@[simp] theorem deliver_rsp (q : Request) (r : Response) (s : State) :
    (deliver q r s).rsp = some r := rfl
@[simp] theorem deliver_delivered (q : Request) (r : Response) (s : State) :
    (deliver q r s).delivered = s.delivered ++ [(q, r)] := rfl
@[simp] theorem deliver_program (q : Request) (r : Response) (s : State) :
    (deliver q r s).program = s.program := rfl
@[simp] theorem deliver_schedule (q : Request) (r : Response) (s : State) :
    (deliver q r s).schedule = s.schedule := rfl

/-! ### resetUnit -/

@[simp] theorem resetUnit_tblReady (s : State) :
    (resetUnit s).tblReady = false := rfl
@[simp] theorem resetUnit_base (s : State) :
    (resetUnit s).base = Vector.replicate Config.tableEntries none := rfl
@[simp] theorem resetUnit_shift (s : State) :
    (resetUnit s).shift = Vector.replicate Config.tableEntries none := rfl
@[simp] theorem resetUnit_inflight (s : State) :
    (resetUnit s).inflight = [] := rfl
@[simp] theorem resetUnit_rsp (s : State) :
    (resetUnit s).rsp = none := rfl
@[simp] theorem resetUnit_delivered (s : State) :
    (resetUnit s).delivered = s.delivered := rfl
@[simp] theorem resetUnit_program (s : State) :
    (resetUnit s).program = s.program := rfl
@[simp] theorem resetUnit_schedule (s : State) :
    (resetUnit s).schedule = s.schedule := rfl

/-! ### buildTables -/

@[simp] theorem buildTables_tblReady (s : State) :
    (buildTables s).tblReady = true := rfl
@[simp] theorem buildTables_base (s : State) :
    (buildTables s).base = initBaseTable := rfl
@[simp] theorem buildTables_shift (s : State) :
    (buildTables s).shift = initShiftTable := rfl
@[simp] theorem buildTables_inflight (s : State) :
    (buildTables s).inflight = s.inflight := rfl
@[simp] theorem buildTables_rsp (s : State) :
    (buildTables s).rsp = s.rsp := rfl
@[simp] theorem buildTables_delivered (s : State) :
    (buildTables s).delivered = s.delivered := rfl
@[simp] theorem buildTables_program (s : State) :
    (buildTables s).program = s.program := rfl
@[simp] theorem buildTables_schedule (s : State) :
    (buildTables s).schedule = s.schedule := rfl

/-! ### acceptRequest -/

@[simp] theorem acceptRequest_tblReady (q : Request) (s : State) :
    (acceptRequest q s).tblReady = s.tblReady := rfl
@[simp] theorem acceptRequest_base (q : Request) (s : State) :
    (acceptRequest q s).base = s.base := rfl
@[simp] theorem acceptRequest_shift (q : Request) (s : State) :
    (acceptRequest q s).shift = s.shift := rfl
@[simp] theorem acceptRequest_inflight (q : Request) (s : State) :
    (acceptRequest q s).inflight = s.inflight ++ [q] := rfl
@[simp] theorem acceptRequest_rsp (q : Request) (s : State) :
    (acceptRequest q s).rsp = s.rsp := rfl
@[simp] theorem acceptRequest_delivered (q : Request) (s : State) :
    (acceptRequest q s).delivered = s.delivered := rfl
@[simp] theorem acceptRequest_program (q : Request) (s : State) :
    (acceptRequest q s).program = s.program.tail := rfl
@[simp] theorem acceptRequest_schedule (q : Request) (s : State) :
    (acceptRequest q s).schedule = s.schedule := rfl

/-! ### takeHead -/

@[simp] theorem takeHead_tblReady (s : State) :
    (takeHead s).tblReady = s.tblReady := rfl
@[simp] theorem takeHead_base (s : State) :
    (takeHead s).base = s.base := rfl
@[simp] theorem takeHead_shift (s : State) :
    (takeHead s).shift = s.shift := rfl
@[simp] theorem takeHead_inflight (s : State) :
    (takeHead s).inflight = s.inflight.tail := rfl
@[simp] theorem takeHead_rsp (s : State) :
    (takeHead s).rsp = s.rsp := rfl
@[simp] theorem takeHead_delivered (s : State) :
    (takeHead s).delivered = s.delivered := rfl
@[simp] theorem takeHead_program (s : State) :
    (takeHead s).program = s.program := rfl
@[simp] theorem takeHead_schedule (s : State) :
    (takeHead s).schedule = s.schedule := rfl

/-! ### beginStep -/

@[simp] theorem beginStep_tblReady (s : State) :
    (beginStep s).tblReady = s.tblReady := rfl
@[simp] theorem beginStep_base (s : State) :
    (beginStep s).base = s.base := rfl
@[simp] theorem beginStep_shift (s : State) :
    (beginStep s).shift = s.shift := rfl
@[simp] theorem beginStep_inflight (s : State) :
    (beginStep s).inflight = s.inflight := rfl
@[simp] theorem beginStep_rsp (s : State) :
    (beginStep s).rsp = none := rfl
@[simp] theorem beginStep_delivered (s : State) :
    (beginStep s).delivered = s.delivered := rfl
@[simp] theorem beginStep_program (s : State) :
    (beginStep s).program = s.program := rfl
@[simp] theorem beginStep_schedule (s : State) :
    (beginStep s).schedule = s.schedule.tail := rfl

/-! ### placeRequest -/

@[simp] theorem placeRequest_tblReady (q : Request) (s : State) :
    (placeRequest q s).tblReady = true := rfl
@[simp] theorem placeRequest_base (q : Request) (s : State) :
    (placeRequest q s).base = initBaseTable := rfl
@[simp] theorem placeRequest_shift (q : Request) (s : State) :
    (placeRequest q s).shift = initShiftTable := rfl
@[simp] theorem placeRequest_inflight (q : Request) (s : State) :
    (placeRequest q s).inflight = q :: s.inflight.tail := rfl
@[simp] theorem placeRequest_rsp (q : Request) (s : State) :
    (placeRequest q s).rsp = s.rsp := rfl
@[simp] theorem placeRequest_delivered (q : Request) (s : State) :
    (placeRequest q s).delivered = s.delivered := rfl
@[simp] theorem placeRequest_program (q : Request) (s : State) :
    (placeRequest q s).program = s.program := rfl
@[simp] theorem placeRequest_schedule (q : Request) (s : State) :
    (placeRequest q s).schedule = { rst := false, turn := .respond } :: s.schedule := rfl

/-! ### The state that answers a request -/

/-- Delivering is the frame of every instruction: the response port and the observation, and nothing else. -/
theorem deliver_eq_answered (q : Request) (r : Response) (s : State) : deliver q r s = answered q.op q.a r s := rfl

/-! ### Reset -/

@[simp] theorem reset_tblReady : State.reset.tblReady = false := rfl
@[simp] theorem reset_base : State.reset.base = Vector.replicate Config.tableEntries none := rfl
@[simp] theorem reset_shift : State.reset.shift = Vector.replicate Config.tableEntries none := rfl
@[simp] theorem reset_inflight : State.reset.inflight = [] := rfl
@[simp] theorem reset_rsp : State.reset.rsp = none := rfl
@[simp] theorem reset_delivered : State.reset.delivered = [] := rfl
@[simp] theorem reset_program : State.reset.program = [] := rfl
@[simp] theorem reset_schedule : State.reset.schedule = [] := rfl

end Sys2Proof.Machine
end

