-- ==== Sys2Proof/Laws/Tables.lean ====
section
/-! SUPPORT. What the tables hold after initialisation, and what a read of them gives. -/

namespace Sys2Proof.Machine

@[simp] theorem tabulate_getElem {α : Type} (f : Nat → α) (i : Nat) (h : i < Config.tableEntries) :
    (tabulate f)[i] = some (f i) := by
  simp [tabulate]

/-- Every BASE entry after initialisation. -/
theorem initBaseTable_getElem (i : Nat) (h : i < Config.tableEntries) : initBaseTable[i] = some (initBase i) :=
  tabulate_getElem initBase i h

/-- Every SHIFT entry after initialisation. -/
theorem initShiftTable_getElem (i : Nat) (h : i < Config.tableEntries) : initShiftTable[i] = some (initShift i) :=
  tabulate_getElem initShift i h

/-- A read of built tables finds both entries. -/
theorem readTables_of_built {s : State} (h : TablesBuilt s) (i : TableKey) :
    readTables s i = some (initBase i.toNat, initShift i.toNat) := by
  obtain ⟨hb, hs⟩ := h
  have h512 : i.toNat < Config.tableEntries := i.isLt
  simp only [readTables, hb, hs, initBaseTable_getElem _ h512, initShiftTable_getElem _ h512]

/-- A read of unset tables finds no value. -/
theorem readTables_of_unset {s : State} (h : TablesUnset s) (i : TableKey) : readTables s i = none := by
  obtain ⟨hb, hs⟩ := h
  simp [readTables, hb, hs]

/-- A read looks at BASE and SHIFT only. -/
theorem readTables_congr {s t : State} (hb : s.base = t.base) (hs : s.shift = t.shift) (i : TableKey) :
    readTables s i = readTables t i := by
  simp only [readTables, hb, hs]

theorem tablesBuilt_buildTables (s : State) : TablesBuilt (buildTables s) := ⟨rfl, rfl⟩

theorem tablesBuilt_placeRequest (q : Request) (s : State) : TablesBuilt (placeRequest q s) := ⟨rfl, rfl⟩

theorem tablesUnset_resetUnit (s : State) : TablesUnset (resetUnit s) := ⟨rfl, rfl⟩

/-- Built tables are not unset. -/
theorem TablesBuilt.not_unset {s : State} (h : TablesBuilt s) : ¬ TablesUnset s := by
  intro hu
  have h1 := readTables_of_built h 0#9
  rw [readTables_of_unset hu] at h1
  cases h1

end Sys2Proof.Machine
end

