-- ==== Sys2Proof/Laws/Steps.lean ====
section
/-! SUPPORT. What an instruction, a response and a step can do, said once. -/

namespace Sys2Proof.Machine

/-! ### Instructions -/

/-- What every instruction can do: it answers its own request and changes nothing else, or (truncsfhf2 only) it stops on a table
entry that holds no value. -/
theorem exec_cases (i : Instr) (s : State) :
    (∃ r, exec i s = .next (deliver i.request r s)) ∨
    (∃ a, i = .truncsfhf2 a ∧ readTables s (tableKey (singleOperand a)) = none ∧
      exec i s = .fault (.tableEntryUnset (tableKey (singleOperand a)))) := by
  cases i with
  | truncsfhf2 a =>
    simp only [exec, execTruncsfhf2]
    cases h : readTables s (tableKey (singleOperand a)) with
    | none => exact .inr ⟨a, rfl, h, rfl⟩
    | some p => exact .inl ⟨_, rfl⟩
  | extendhfsf2 a => exact .inl ⟨_, rfl⟩
  | extendsfdf2 a => exact .inl ⟨_, rfl⟩
  | truncdfhf2 a => exact .inl ⟨_, rfl⟩
  | truncdfsf2 a => exact .inl ⟨_, rfl⟩
  | floattisf a => exact .inl ⟨_, rfl⟩
  | floattidf a => exact .inl ⟨_, rfl⟩
  | floatuntisf a => exact .inl ⟨_, rfl⟩
  | floatuntidf a => exact .inl ⟨_, rfl⟩

/-- An instruction that answers a next state answers its own request, and nothing else changes. -/
theorem exec_next {i : Instr} {s t : State} (h : exec i s = .next t) : ∃ r, t = deliver i.request r s := by
  obtain ⟨r, hr⟩ | ⟨a, -, -, hf⟩ := exec_cases i s
  · exact ⟨r, by rw [hr] at h; cases h; rfl⟩
  · rw [hf] at h; cases h

/-- On built tables every instruction answers as the spec says. -/
theorem exec_of_built {s : State} (h : TablesBuilt s) (i : Instr) :
    exec i s = .next (deliver i.request (specResponse i.request) s) := by
  cases i with
  | truncsfhf2 a =>
    simp only [exec, execTruncsfhf2, readTables_of_built h]
    rfl
  | extendhfsf2 a => rfl
  | extendsfdf2 a => rfl
  | truncdfhf2 a => rfl
  | truncdfsf2 a => rfl
  | floattisf a => rfl
  | floattidf a => rfl
  | floatuntisf a => rfl
  | floatuntidf a => rfl

/-! ### Decoding -/

/-- The request of an instruction decodes to it. -/
@[simp] theorem decodeRequest_request (i : Instr) : decodeRequest i.request = .ok i := by
  cases i <;> rfl

/-- A request that decodes is the request of what it decodes to. -/
theorem request_of_decodeRequest {q : Request} {i : Instr} (h : decodeRequest q = .ok i) : i.request = q := by
  obtain ⟨op, a⟩ := q
  unfold decodeRequest at h
  split at h <;> cases h <;>
    (simp only [Instr.request, Instr.opCode, Instr.operand, Request.mk.injEq, and_true]; exact (BitVec.eq_of_toNat_eq (by simpa using ‹_ = _›)).symm)

/-- A request that does not decode has a reserved op code. -/
theorem reserved_of_decodeRequest {q : Request} {op : OpCode} (h : decodeRequest q = .error (.reservedOp op)) :
    op = q.op ∧ 9 ≤ q.op.toNat := by
  unfold decodeRequest at h
  split at h <;> cases h
  refine ⟨rfl, ?_⟩
  by_contra hlt
  interval_cases hv : q.op.toNat <;> simp_all

/-- A reserved op code does not decode. -/
theorem decodeRequest_of_reserved {q : Request} (h : 9 ≤ q.op.toNat) : decodeRequest q = .error (.reservedOp q.op) := by
  unfold decodeRequest
  split <;> first | omega | rfl

/-- A reserved op code is answered with ILLEGAL_OP. -/
theorem specResponse_of_reserved {q : Request} (h : 9 ≤ q.op.toNat) : specResponse q = .illegalOp := by
  unfold specResponse
  split <;> first | omega | rfl

/-! ### Responses -/

/-- What the response to a request can do: answer it and change nothing else, or stop on an unset table entry. -/
theorem runRequest_cases (q : Request) (s : State) :
    (∃ r, runRequest q s = .next (deliver q r s)) ∨
    (∃ key, readTables s key = none ∧ runRequest q s = .fault (.tableEntryUnset key)) := by
  unfold runRequest
  cases h : decodeRequest q with
  | ok i =>
    have hq := request_of_decodeRequest h
    obtain ⟨r, hr⟩ | ⟨a, -, hn, hf⟩ := exec_cases i s
    · exact .inl ⟨r, by simpa [hq] using hr⟩
    · exact .inr ⟨_, hn, hf⟩
  | error e => cases e; exact .inl ⟨_, rfl⟩

/-- On built tables every request is answered as the spec says. -/
theorem runRequest_of_built {s : State} (h : TablesBuilt s) (q : Request) :
    runRequest q s = .next (deliver q (specResponse q) s) := by
  unfold runRequest
  cases hd : decodeRequest q with
  | ok i => have hq := request_of_decodeRequest hd; simp only [exec_of_built h, hq]
  | error e =>
    cases e with
    | reservedOp op =>
      have hr := (reserved_of_decodeRequest hd).2
      simp only [takeError, Cause.response, specResponse_of_reserved hr]

/-! ### One step under an entry of the schedule -/

theorem beginStep_of_slot {s : State} {slot : Slot} {rest : List Slot} (h : s.schedule = slot :: rest) :
    beginStep s = { s with rsp := none, schedule := rest } := by
  simp [beginStep, h]

@[simp] theorem offer_beginStep (s : State) : offer (beginStep s) = offer s := rfl

@[simp] theorem reqReady_beginStep (s : State) : reqReady (beginStep s) = reqReady s := rfl

/-- A step with `rst` at 1. -/
theorem step_of_rst {s : State} {tn : Turn} {rest : List Slot} (h : s.schedule = { rst := true, turn := tn } :: rest) :
    step s = .next (resetUnit (beginStep s)) := by
  simp only [step, nextSlot, h, takeSlot, ↓reduceIte]

/-- A step with `rst` at 0 is a turn of the scheduled agent. -/
theorem step_of_turn {s : State} {tn : Turn} {rest : List Slot} (h : s.schedule = { rst := false, turn := tn } :: rest) :
    step s = takeTurn tn (beginStep s) := by
  simp only [step, nextSlot, h, takeSlot, Bool.false_eq_true, ↓reduceIte]

/-- A step with no schedule left is a turn of the fair agent. -/
theorem step_of_nil {s : State} (h : s.schedule = []) :
    step s = takeTurn (fairTurn s) (beginStep s) := by
  simp only [step, nextSlot, h, takeSlot, Bool.false_eq_true, ↓reduceIte]

/-! ### The turns -/

theorem initTurn_of_not_ready {s : State} (h : s.tblReady = false) : initTurn s = .next (buildTables s) := by
  simp [initTurn, initEnabled, h]

theorem initTurn_of_ready {s : State} (h : s.tblReady = true) : initTurn s = .next s := by
  simp [initTurn, initEnabled, h]

theorem acceptTurn_of_nothing {s : State} (h : offer s = .nothing) : acceptTurn s = .next s := by
  simp only [acceptTurn, h]

theorem acceptTurn_of_noValue {s : State} {k : Nat} (h : offer s = .noValue k) :
    acceptTurn s = .fault (.resultHasNoValue k) := by
  simp only [acceptTurn, h]

theorem acceptTurn_of_ready {s : State} {q : Request} (h : offer s = .request q) (hr : reqReady s = true) :
    acceptTurn s = .next (acceptRequest q s) := by
  simp only [acceptTurn, h, hr, ↓reduceIte]

theorem acceptTurn_of_not_ready {s : State} {q : Request} (h : offer s = .request q) (hr : reqReady s = false) :
    acceptTurn s = .next s := by
  simp only [acceptTurn, h, hr, Bool.false_eq_true, ↓reduceIte]

theorem respondTurn_of_nil {s : State} (h : s.inflight = []) : respondTurn s = .next s := by
  simp only [respondTurn, h]

theorem respondTurn_of_cons {s : State} {q : Request} {qs : List Request} (h : s.inflight = q :: qs) :
    respondTurn s = runRequest q (takeHead s) := by
  simp only [respondTurn, h]

/-! ### The request port -/

/-- A request on the port depends on the program and on responses that have arrived, so it stays while those only grow. -/
theorem offer_stable {s t : State} {q : Request} (hp : t.program = s.program)
    (hd : ∃ l, t.delivered = s.delivered ++ l) (h : offer s = .request q) : offer t = .request q := by
  obtain ⟨l, hd⟩ := hd
  unfold offer at *
  rw [hp]
  cases hs : s.program with
  | nil => simp [hs] at h
  | cons x xs =>
    simp only [hs, offerLine] at h ⊢
    cases hx : x.operand with
    | lit a => simpa [hx] using h
    | result k =>
      simp only [hx] at h ⊢
      cases k with
      | zero => simp [responseNo] at h
      | succ k =>
        simp only [responseNo] at h ⊢
        cases hk : s.delivered[k]? with
        | none => simp [hk] at h
        | some p =>
          have ht : t.delivered[k]? = some p := by
            rw [hd, List.getElem?_append_left (List.getElem?_eq_some_iff.mp hk).1]; exact hk
          rw [ht]; simpa [hk] using h

/-- A program of literals always has its first line on the port. -/
theorem offer_of_literal {s : State} {l : HostLine} {ls : List HostLine} {a : OperandWord}
    (hp : s.program = l :: ls) (hl : l.operand = .lit a) : offer s = .request { op := l.opCode, a := a } := by
  simp only [offer, hp, offerLine, hl]

/-! ### Steps -/

/-- What a step can do when it answers a next state, one case per agent and one for a turn that is not enabled. -/
theorem step_next {s t : State} (h : step s = .next t) :
    ((nextSlot s).rst = true ∧ t = resetUnit (beginStep s)) ∨
    ((nextSlot s).rst = false ∧ (nextSlot s).turn = .init ∧ s.tblReady = false ∧ t = buildTables (beginStep s)) ∨
    (∃ q, (nextSlot s).rst = false ∧ (nextSlot s).turn = .accept ∧ offer s = .request q ∧ reqReady s = true ∧
      t = acceptRequest q (beginStep s)) ∨
    (∃ q qs r, (nextSlot s).rst = false ∧ (nextSlot s).turn = .respond ∧ s.inflight = q :: qs ∧
      runRequest q (takeHead (beginStep s)) = .next t ∧ t = deliver q r (takeHead (beginStep s))) ∨
    ((nextSlot s).rst = false ∧
      ((nextSlot s).turn = .init ∧ s.tblReady = true ∨
       (nextSlot s).turn = .accept ∧ (offer s = .nothing ∨ (∃ q, offer s = .request q) ∧ reqReady s = false) ∨
       (nextSlot s).turn = .respond ∧ s.inflight = []) ∧
      t = beginStep s) := by
  unfold step takeSlot takeTurn at h
  cases hr : (nextSlot s).rst with
  | true =>
    simp only [hr, ↓reduceIte] at h
    cases h
    exact .inl ⟨rfl, rfl⟩
  | false =>
    simp only [hr, Bool.false_eq_true, ↓reduceIte] at h
    right
    cases ht : (nextSlot s).turn with
    | init =>
      simp only [ht, initTurn, initEnabled] at h
      cases hb : s.tblReady with
      | false => simp [hb] at h; exact .inl ⟨rfl, rfl, rfl, h.symm⟩
      | true => simp [hb] at h; exact .inr (.inr (.inr ⟨rfl, .inl ⟨rfl, rfl⟩, h.symm⟩))
    | accept =>
      have ho : offer (beginStep s) = offer s := rfl
      have hq : reqReady (beginStep s) = reqReady s := rfl
      simp only [ht, acceptTurn, ho, hq] at h
      cases hoff : offer s with
      | nothing => simp only [hoff] at h; cases h; exact .inr (.inr (.inr ⟨rfl, .inr (.inl ⟨rfl, .inl rfl⟩), rfl⟩))
      | noValue k => simp only [hoff] at h; cases h
      | request q =>
        simp only [hoff] at h
        cases hrd : reqReady s with
        | true => simp [hrd] at h; exact .inr (.inl ⟨q, rfl, rfl, rfl, rfl, h.symm⟩)
        | false => simp [hrd] at h; exact .inr (.inr (.inr ⟨rfl, .inr (.inl ⟨rfl, .inr ⟨⟨q, rfl⟩, rfl⟩⟩), h.symm⟩))
    | respond =>
      simp only [ht, respondTurn, beginStep_inflight] at h
      cases hi : s.inflight with
      | nil => simp only [hi] at h; cases h; exact .inr (.inr (.inr ⟨rfl, .inr (.inr ⟨rfl, rfl⟩), rfl⟩))
      | cons q qs =>
        simp only [hi] at h
        obtain ⟨r, hn⟩ | ⟨key, -, hf⟩ := runRequest_cases q (takeHead (beginStep s))
        · refine .inr (.inr (.inl ⟨q, qs, r, rfl, rfl, rfl, h, ?_⟩))
          rw [hn] at h; cases h; rfl
        · rw [hf] at h; cases h

end Sys2Proof.Machine
end

