-- ==== Sys2Proof/Laws/Decode.lean ====
section
/-! SUPPORT. Request words and requests spell each other. -/

namespace Sys2Proof

/-- The bits of a request word: the operand below, the op code above it (R61). -/
theorem word_getLsbD (q : Request) (j : Nat) :
    q.word.getLsbD j = if j < 128 then q.a.getLsbD j else q.op.getLsbD (j - 128) :=
  BitVec.getLsbD_append

@[simp] theorem ofWord_word (q : Request) : Request.ofWord q.word = q := by
  have h1 : q.word.extractLsb' 128 4 = q.op := by
    apply BitVec.eq_of_getLsbD_eq; intro i hi
    rw [BitVec.getLsbD_extractLsb', word_getLsbD]; simp [hi]
  have h2 : q.word.extractLsb' 0 128 = q.a := by
    apply BitVec.eq_of_getLsbD_eq; intro i hi
    rw [BitVec.getLsbD_extractLsb', word_getLsbD]; simp [hi]
  simp only [Request.ofWord, h1, h2]

@[simp] theorem word_ofWord (w : RequestWord) : (Request.ofWord w).word = w := by
  apply BitVec.eq_of_getLsbD_eq
  intro i hi
  rw [word_getLsbD]
  simp only [Request.ofWord, BitVec.getLsbD_extractLsb']
  by_cases h : i < 128
  · simp [h]
  · simp [h, show i - 128 < 4 by omega, show 128 + (i - 128) = i by omega]

end Sys2Proof
end

