-- ==== Sys2Proof/Laws/IntToFloat.lean ====
section
/-! SUPPORT. The integer engine: its result as a composed pattern, and that the pattern of a magnitude is correctly rounded. -/

namespace Sys2Proof.Machine

/-- A format whose bias is half of its exponent range, as binary32 and binary64 have. -/
abbrev Biased (f : Format) : Prop := f.B = 2 ^ (f.E - 1) - 1

theorem two_pow_E_eq {f : Format} (hE : 0 < f.E) (hB : Biased f) : 2 ^ f.E = 2 * f.B + 2 := by
  have h1 : 2 ^ f.E = 2 * 2 ^ (f.E - 1) := by rw [← pow_succ']; congr 1; omega
  have h2 : 0 < 2 ^ (f.E - 1) := by positivity
  omega

/-- The overflow bound, in powers of two. -/
theorem overflowBound_eq {f : Format} (hE : 0 < f.E) (hB : Biased f) :
    overflowBound f = (2 : ℚ) ^ ((f.B : ℤ) + 1) - 2 ^ ((f.B : ℤ) - 1 - f.M) := by
  have h2 : ((2 ^ f.E : ℤ)) - 2 - f.B = f.B := by
    have h : ((2 ^ f.E : ℕ) : ℤ) = 2 * f.B + 2 := by exact_mod_cast two_pow_E_eq hE hB
    push_cast at h; rw [h]; ring
  unfold overflowBound
  rw [h2, mul_sub]
  congr 1
  · rw [zpow_add₀ (by norm_num)]; norm_num
  · rw [one_div, inv_pow, ← zpow_natCast, ← zpow_neg, ← zpow_add₀ (by norm_num)]; congr 1; push_cast; ring

/-- The rounded mantissa never exceeds 2^M, the value of a carry (R135). -/
theorem roundedMantissa_le {M x : Nat} (hM : 0 < M) (hx : x ≠ 0) (hx2 : x < 2 ^ 128) : roundedMantissa M x ≤ 2 ^ M := by
  by_cases h : bitlen x ≤ M + 1
  · have h1 := roundedMantissa_exact hx h
    have h2 : x * 2 ^ (M + 1 - bitlen x) < 2 ^ bitlen x * 2 ^ (M + 1 - bitlen x) :=
      Nat.mul_lt_mul_of_pos_right (lt_two_pow_bitlen x) (by positivity)
    rw [← pow_add, Nat.add_sub_cancel' h, pow_succ] at h2; omega
  · have h1 := (roundedMantissa_nearest hM hx2 (by omega)).2.2.1
    rw [pow_succ] at h1; omega

/-- The sum d + y (R137, R138) as an exponent field e and a mantissa field m: a carry raises e by one and leaves m = 0. Its value is
the rounded mantissa in units of the binade of x. -/
theorem exponent_add_mantissa {f : Format} (hf : Proper f) (hB : 0 < f.B) {x : Nat} (hx : x ≠ 0) (hx2 : x < 2 ^ 128) :
    ∃ e m : Nat, e ≤ bitlen x + f.B ∧ 1 ≤ e ∧ m < 2 ^ f.M ∧
      (bitlen x - 1 + f.B) * 2 ^ f.M + roundedMantissa f.M x = e * 2 ^ f.M + m ∧
      ((2 ^ f.M + m : ℕ) : ℚ) * 2 ^ ((e : ℤ) - f.B - f.M) =
        (2 ^ f.M + roundedMantissa f.M x : ℕ) * (2 : ℚ) ^ ((bitlen x : ℤ) - 1 - f.M) ∧
      (e = bitlen x + f.B ↔ roundedMantissa f.M x = 2 ^ f.M) ∧
      m % 2 = (2 ^ f.M + roundedMantissa f.M x) % 2 := by
  have hn := bitlen_pos hx
  have hM2 : 2 ^ f.M % 2 = 0 := by
    obtain ⟨j, hj⟩ := Nat.exists_eq_succ_of_ne_zero hf.2.ne'
    rw [hj, pow_succ]; omega
  rcases (roundedMantissa_le hf.2 hx hx2).lt_or_eq with h | h
  · refine ⟨bitlen x - 1 + f.B, roundedMantissa f.M x, by omega, by omega, h, rfl, ?_, by omega, by omega⟩
    congr 2; push_cast [hn]; ring
  · refine ⟨bitlen x + f.B, 0, le_rfl, by omega, by positivity, ?_, ?_, by simp [h], by omega⟩
    · rw [h, show bitlen x + f.B = bitlen x - 1 + f.B + 1 by omega]; ring
    · rw [h]; push_cast
      rw [show ((2 : ℚ) ^ f.M + 2 ^ f.M) = 2 ^ f.M * 2 by ring, add_zero, mul_assoc]
      congr 1
      rw [show ((2 : ℚ)) * 2 ^ ((bitlen x : ℤ) - 1 - f.M) = 2 ^ (1 + ((bitlen x : ℤ) - 1 - f.M)) by
        rw [zpow_add₀ (by norm_num)]; norm_num]
      congr 1; ring

/-- The rounded mantissa, in units of the binade of x, is at most half a unit from x, and even when it is exactly that. -/
theorem roundedMantissa_half_unit {f : Format} (hM : 0 < f.M) {x : Nat} (hx : x ≠ 0) (hx2 : x < 2 ^ 128) :
    let u := (2 : ℚ) ^ ((bitlen x : ℤ) - 1 - f.M)
    let q := 2 ^ f.M + roundedMantissa f.M x
    2 * |(q : ℚ) * u - x| ≤ u ∧ (2 * |(q : ℚ) * u - x| = u → q % 2 = 0) := by
  intro u q
  by_cases h : bitlen x ≤ f.M + 1
  · have h2 : (q : ℚ) * u = x := by
      simp only [q, u, roundedMantissa_exact hx h]
      push_cast
      rw [mul_assoc, ← zpow_natCast, ← zpow_add₀ (by norm_num),
        show (((f.M + 1 - bitlen x : ℕ) : ℤ) + ((bitlen x : ℤ) - 1 - f.M)) = 0 by push_cast [h]; ring]
      simp
    have hpos : (0 : ℚ) < u := by positivity
    rw [h2, sub_self, abs_zero, mul_zero]
    exact ⟨hpos.le, fun h => absurd h hpos.ne⟩
  · obtain ⟨h1, h2, -, h4⟩ := roundedMantissa_nearest hM hx2 (by omega : f.M + 1 < bitlen x)
    have hu : u = ((2 ^ (bitlen x - f.M - 1) : ℕ) : ℚ) := by
      simp only [u]; push_cast; rw [← zpow_natCast]; congr 1; omega
    rw [hu]
    change 2 * (q * _) ≤ _ at h1
    change _ ≤ 2 * (q * _) + _ at h2
    generalize 2 ^ (bitlen x - f.M - 1) = w at *
    have h1' : 2 * ((q : ℚ) * w) ≤ 2 * x + w := by exact_mod_cast h1
    have h2' : 2 * (x : ℚ) ≤ 2 * (q * w) + w := by exact_mod_cast h2
    constructor
    · have : |(q : ℚ) * w - x| ≤ w / 2 := abs_le.mpr ⟨by linarith, by linarith⟩
      linarith
    · intro h
      apply h4
      rcases abs_cases ((q : ℚ) * w - x) with ⟨ha, _⟩ | ⟨ha, _⟩
      · left; rw [ha] at h; have : 2 * ((q : ℚ) * w) = 2 * x + w := by linarith
        exact_mod_cast this
      · right; rw [ha] at h; have : 2 * (x : ℚ) = 2 * (q * w) + w := by linarith
        exact_mod_cast this

/-! ### Sign and magnitude -/

/-- The sign and the magnitude of a two's-complement integer (R132). -/
theorem signMagnitude_signed (X : BitVec 128) :
    signMagnitude true X = ((if X.toInt < 0 then 1 else 0), X.toInt.natAbs) := by
  have h := X.isLt
  have hm : X.getLsbD 127 = decide (2 ^ 127 ≤ X.toNat) := by
    have := BitVec.msb_eq_decide X
    rw [BitVec.msb_eq_getLsbD_last] at this; simpa using this
  unfold signMagnitude
  rw [hm, BitVec.toInt_eq_toNat_cond]
  by_cases hc : 2 ^ 127 ≤ X.toNat
  · have h2 : ¬ 2 * X.toNat < 2 ^ 128 := by omega
    simp only [hc, decide_true, Bool.and_true, if_true, h2, if_false, neg128]
    rw [Nat.mod_eq_of_lt (by omega), if_pos (by omega)]
    congr 1
    omega
  · have h2 : 2 * X.toNat < 2 ^ 128 := by omega
    simp only [hc, decide_false, Bool.and_false, h2, if_true]
    simp

@[simp] theorem signMagnitude_unsigned (X : BitVec 128) : signMagnitude false X = (0, X.toNat) := by
  simp [signMagnitude]

/-- The engine on an X that is not zero, by the widths of its format. -/
theorem intToFloat_of_ne_zero (f : Format) {sg : Bool} {X : BitVec 128} (hX : X ≠ 0#128) :
    intToFloat sg f.M f.B (f.E + f.M + 1) X =
      ((signMagnitude sg X).1 <<< (f.E + f.M)) |||
        ((bitlen (signMagnitude sg X).2 - 1 + f.B) <<< f.M + roundedMantissa f.M (signMagnitude sg X).2) := by
  simp [intToFloat, hX]

/-! ### The pattern of a magnitude is correctly rounded (R134 to R138) -/

/-- A magnitude lies at or above the power of two that its length names. -/
theorem binade_le {x : Nat} (hx : x ≠ 0) : (2 : ℚ) ^ ((bitlen x : ℤ) - 1) ≤ x := by
  have hn := bitlen_pos hx
  have h : ((2 ^ (bitlen x - 1) : ℕ) : ℚ) ≤ x := by exact_mod_cast two_pow_bitlen_sub_one_le hx
  push_cast at h; rw [← zpow_natCast] at h; convert h using 2; push_cast [hn]; ring

/-- At or past the overflow bound a 128-bit magnitude has its top bit set, its mantissa carries, and the bias is that of binary32. -/
theorem carry_of_overflow {f : Format} (hf : Proper f) (h127 : 127 ≤ f.B) (hB : Biased f) {x : Nat} (hx : x ≠ 0)
    (hx2 : x < 2 ^ 128) (hb : overflowBound f ≤ x) :
    f.B = 127 ∧ bitlen x = 128 ∧ roundedMantissa f.M x = 2 ^ f.M := by
  have hn128 : bitlen x ≤ 128 := (bitlen_le_iff x 128).mpr hx2
  have hEB := two_pow_E_eq hf.1 hB
  have hrmle := roundedMantissa_le hf.2 hx hx2
  have hcore := roundedMantissa_half_unit (f := f) hf.2 hx hx2
  simp only at hcore
  rw [overflowBound_eq hf.1 hB] at hb
  have hx2' : (x:ℚ) < 2^(128:ℤ) := by exact_mod_cast hx2
  have hBlt : f.B = 127 := by
    by_contra hne
    have : (128:ℤ) < f.B := by
      have : f.B ≠ 128 := by
        intro h; rw [h] at hEB
        have := hf.1
        have h9 : f.E ≤ 8 ∨ 9 ≤ f.E := by omega
        rcases h9 with h | h
        · have : 2^f.E ≤ 2^8 := Nat.pow_le_pow_right (by norm_num) h
          omega
        · have : 2^9 ≤ 2^f.E := Nat.pow_le_pow_right (by norm_num) h
          omega
      omega
    have h1 : (2:ℚ)^(129:ℤ) ≤ 2^(f.B:ℤ) := zpow_le_zpow_right₀ (by norm_num) (by omega)
    have h2 : (2:ℚ)^((f.B:ℤ)-1-f.M) ≤ 2^(f.B:ℤ) := zpow_le_zpow_right₀ (by norm_num) (by omega)
    have h3 : (2:ℚ)^((f.B:ℤ)+1) = 2 * 2^(f.B:ℤ) := by rw [zpow_add₀ (by norm_num)]; norm_num; ring
    rw [h3] at hb
    have : (2:ℚ)^(128:ℤ) < 2^(129:ℤ) := by norm_num
    linarith
  rw [hBlt] at hb
  have e3 : (2:ℚ)^(((127:ℕ):ℤ)+1) = 2^(128:ℤ) := by norm_num
  rw [e3] at hb
  have hM := hf.2
  have hu2 : (2:ℚ)^(((127:ℕ):ℤ) - 1 - f.M) ≤ 2^(125:ℤ) := zpow_le_zpow_right₀ (by norm_num) (by push_cast; omega)
  have hnn : bitlen x = 128 := by
    by_contra hne
    have : x < 2^127 := (bitlen_le_iff x 127).mp (by omega)
    have : (x:ℚ) < 2^(127:ℤ) := by exact_mod_cast this
    have : (2:ℚ)^(127:ℤ) + 2^(125:ℤ) < 2^(128:ℤ) := by norm_num
    linarith
  obtain ⟨h1, h2⟩ := hcore
  rw [hnn] at h1 h2
  have e2 : (2:ℚ)^(((128:ℕ):ℤ) - 1 - f.M) = 2 * 2^(((127:ℕ):ℤ) - 1 - f.M) := by
    rw [show (((128:ℕ):ℤ) - 1 - f.M) = 1 + (((127:ℕ):ℤ) - 1 - f.M) by push_cast; ring, zpow_add₀ (by norm_num), zpow_one]
  have e4 : (2:ℚ)^(128:ℤ) = (2^(f.M+1) : ℕ) * (2 * 2^(((127:ℕ):ℤ) - 1 - f.M)) := by
    rw [← e2]; rw [Nat.cast_pow, ← zpow_natCast, Nat.cast_ofNat, ← zpow_add₀ (by norm_num)]; congr 1; push_cast; omega
  rw [e2] at h1 h2
  rw [e4] at hb hx2'
  have hvp : (0:ℚ) < 2^(((127:ℕ):ℤ) - 1 - f.M) := by positivity
  generalize (2:ℚ)^(((127:ℕ):ℤ) - 1 - f.M) = v at *
  have hrm : roundedMantissa f.M x = 2^f.M := by
    by_contra hne
    have hM1 : 2^(f.M+1) = 2 * 2^f.M := pow_succ' 2 f.M
    have hQ : 2^f.M + roundedMantissa f.M x + 1 ≤ 2^(f.M+1) := by omega
    have hpar2 : 2^(f.M+1) % 2 = 0 := by omega
    generalize 2^f.M + roundedMantissa f.M x = Q at *
    generalize 2^(f.M+1) = N at *
    have hQ' : (Q:ℚ) + 1 ≤ N := by exact_mod_cast hQ
    have hlow : (Q:ℚ) * (2 * v) - x ≤ - v := by nlinarith
    have h3 : |(Q:ℚ) * (2 * v) - x| = -((Q:ℚ) * (2 * v) - x) := abs_of_nonpos (by linarith)
    rw [h3] at h1 h2
    have hge : (N:ℚ) ≤ Q + 1 := by
      by_contra hlt
      have : (Q:ℚ) + 2 ≤ N := by
        have : Q + 1 < N := by exact_mod_cast (not_le.mp hlt)
        exact_mod_cast this
      nlinarith
    have hNQ : N = Q + 1 := by exact_mod_cast le_antisymm hge hQ'
    have := h2 (by nlinarith)
    omega
  exact ⟨hBlt, hnn, hrm⟩

/-- A magnitude under the overflow bound stays finite. -/
theorem finite_of_lt_overflow {f : Format} (hf : Proper f) (h127 : 127 ≤ f.B) (hB : Biased f) {x e : Nat} (hx : x ≠ 0)
    (hx2 : x < 2 ^ 128) (he : e ≤ bitlen x + f.B) (hcarry : e = bitlen x + f.B ↔ roundedMantissa f.M x = 2 ^ f.M)
    (hb : (x : ℚ) < overflowBound f) : e ≠ 2 ^ f.E - 1 := by
  have hn128 : bitlen x ≤ 128 := (bitlen_le_iff x 128).mpr hx2
  have hEB := two_pow_E_eq hf.1 hB
  have hcore := roundedMantissa_half_unit (f := f) hf.2 hx hx2
  simp only at hcore
  intro heq
  have hn' : bitlen x = 128 ∧ f.B = 127 ∧ e = bitlen x + f.B := by omega
  have hrm := hcarry.mp hn'.2.2
  rw [overflowBound_eq hf.1 hB, hn'.2.1] at hb
  obtain ⟨h1, -⟩ := hcore
  rw [hrm, hn'.1] at h1
  have e1 : ((2^f.M + 2^f.M : ℕ) : ℚ) * (2:ℚ)^(((128:ℕ):ℤ) - 1 - f.M) = 2^(128:ℤ) := by
    simp only [Nat.cast_add, Nat.cast_pow, Nat.cast_ofNat]
    rw [show ((2:ℚ)^f.M + 2^f.M) = 2^((f.M:ℤ) + 1) by rw [zpow_add₀ (by norm_num), zpow_natCast, zpow_one]; ring,
      ← zpow_add₀ (by norm_num)]
    congr 1; push_cast; ring
  rw [e1] at h1
  have e2 : (2:ℚ)^(((128:ℕ):ℤ) - 1 - f.M) = 2 * 2^(((127:ℕ):ℤ) - 1 - f.M) := by
    rw [show (((128:ℕ):ℤ) - 1 - f.M) = 1 + (((127:ℕ):ℤ) - 1 - f.M) by push_cast; ring, zpow_add₀ (by norm_num), zpow_one]
  rw [e2] at h1
  have h2 := le_abs_self ((2:ℚ)^(128:ℤ) - x)
  have e3 : (2:ℚ)^(((127:ℕ):ℤ)+1) = 2^(128:ℤ) := by norm_num
  rw [e3] at hb
  linarith

/-- The engine's pattern of a magnitude x under the sign s is x (or -x) correctly rounded. -/
theorem magnitude_correctlyRounded {f : Format} (hf : Proper f) (h127 : 127 ≤ f.B) (hB : Biased f) {x s : Nat} (hx : x ≠ 0)
    (hx2 : x < 2 ^ 128) (hs : s < 2) :
    CorrectlyRounded f (if s = 1 then -(x : ℚ) else x)
      ((s <<< (f.E + f.M)) ||| ((bitlen x - 1 + f.B) <<< f.M + roundedMantissa f.M x)) := by
  obtain ⟨e, m, he, he1, hm, hpat, hval, hcarry, hpar⟩ := exponent_add_mantissa hf (by omega) hx hx2
  have hn := bitlen_pos hx
  have hn128 : bitlen x ≤ 128 := (bitlen_le_iff x 128).mpr hx2
  have hEB := two_pow_E_eq hf.1 hB
  have he2 : e < 2 ^ f.E := by omega
  have hpat2 : (s <<< (f.E + f.M)) ||| ((bitlen x - 1 + f.B) <<< f.M + roundedMantissa f.M x) = compose f s e m := by
    rw [Nat.shiftLeft_eq _ f.M, hpat, or_sign_eq_compose he2 hm]
  rw [hpat2]
  have hxpos : (0 : ℚ) < x := by exact_mod_cast Nat.pos_of_ne_zero hx
  have habs : |(if s = 1 then -(x : ℚ) else x)| = x := by split <;> simp [abs_of_pos hxpos]
  have hmag : magnitude f (compose f 0 e m) =
      (2 ^ f.M + roundedMantissa f.M x : ℕ) * (2 : ℚ) ^ ((bitlen x : ℤ) - 1 - f.M) := by
    rw [magnitude_of_normal (by rw [expOf_compose hf he2 hm]; omega), expOf_compose hf he2 hm, mantOf_compose hf hm, hval]
  have hcore := roundedMantissa_half_unit (f := f) hf.2 hx hx2
  simp only at hcore
  have hxlo := binade_le hx
  refine ⟨compose_lt hs he2 hm, fun hb => ?_, fun hb => ?_⟩
  · rw [habs] at hb
    have hfin := finite_of_lt_overflow hf h127 hB hx hx2 he hcarry hb
    have hpos : NearestEven f x (compose f 0 e m) := by
      have hs0 : signOf f (compose f 0 e m) = 0 := signOf_compose (by norm_num) he2 hm
      have hval0 : value f (compose f 0 e m) = _ := (value_of_sign_zero hs0).trans hmag
      apply nearestEven_of_binade hf (t := (bitlen x : ℤ) - 1) (by omega)
      · unfold isFinite; rwa [expOf_compose hf he2 hm]
      · exact hxlo
      · rw [hval0]
        have : (2:ℚ)^((bitlen x:ℤ) - 1) = (2^f.M : ℕ) * (2:ℚ)^((bitlen x : ℤ) - 1 - f.M) := by
          push_cast; rw [← zpow_natCast, ← zpow_add₀ (by norm_num)]; congr 1; ring
        rw [this]
        apply mul_le_mul_of_nonneg_right _ (by positivity)
        exact_mod_cast Nat.le_add_right _ _
      · rw [hval0]; exact hcore.1
      · rw [hval0, mantOf_compose hf hm]; intro h; rw [hpar]; exact hcore.2 h
    by_cases hs1 : s = 1
    · rw [if_pos hs1]
      have := hpos.flipSign hf
      unfold Machine.flipSign at this
      rw [signOf_compose (by norm_num) he2 hm, expOf_compose hf he2 hm, mantOf_compose hf hm] at this
      rw [hs1]; exact this
    · rw [if_neg hs1]
      have : s = 0 := by omega
      rw [this]; exact hpos
  · rw [habs] at hb
    obtain ⟨hBlt, hnn, hrm⟩ := carry_of_overflow hf h127 hB hx hx2 hb
    have he3 := hcarry.mpr hrm
    have hm0 : m = 0 := by
      have h9 : (bitlen x - 1 + f.B) * 2^f.M + 2^f.M = e * 2^f.M + m := by rw [← hpat, hrm]
      have : e = bitlen x - 1 + f.B + 1 := by omega
      rw [this, Nat.add_mul _ 1, one_mul] at h9
      omega
    have he4 : e = 2^f.E - 1 := by omega
    have hneg : (if (if s = 1 then -(x:ℚ) else x) < 0 then 1 else 0) = s := by
      by_cases h : s = 1
      · rw [if_pos h, if_pos (by linarith), h]
      · rw [if_neg h, if_neg (by linarith)]; omega
    rw [hneg, infinityOf, compose, hm0, he4, add_zero]

/-- +0 is zero correctly rounded. -/
theorem zero_correctlyRounded {f : Format} (hf : Proper f) (hE : 1 < f.E) (hb : 0 < overflowBound f) :
    CorrectlyRounded f 0 0 := by
  have h0 : compose f 0 0 0 = 0 := by simp [compose]
  have hs : signOf f 0 = 0 := by have := signOf_compose (f := f) (s := 0) (e := 0) (m := 0) (by norm_num) (by positivity) (by positivity); rwa [h0] at this
  have he : expOf f 0 = 0 := by have := expOf_compose hf (s := 0) (e := 0) (m := 0) (by positivity) (by positivity); rwa [h0] at this
  have hm : mantOf f 0 = 0 := by have := mantOf_compose hf (s := 0) (e := 0) (m := 0) (by positivity); rwa [h0] at this
  have hv : value f 0 = 0 := by rw [value_of_sign_zero hs, magnitude_of_subnormal he, hm]; simp
  refine ⟨by positivity, fun _ => ?_, fun h => ?_⟩
  · refine ⟨?_, fun c _ _ => ?_⟩
    · unfold isFinite; rw [he]
      have : 2^1 < 2^f.E := Nat.pow_lt_pow_right (by norm_num) hE
      omega
    · rw [hv]; simp [hm]
  · simp at h; linarith

end Sys2Proof.Machine
end

