-- ==== Sys2Proof/Laws/PerInstr.lean ====
section
/-! SUPPORT. The family RoundTrip: what every operation, as syntax, satisfies of its own encoding. -/

namespace Sys2Proof.Laws

/-- The request word of an operation has the operation's op code in bits 131:128 and its operand below, and decodes to it. -/
def RoundTrip.Statement (i : Instr) : Prop :=
  (encode i).extractLsb' 128 4 = i.opCode ∧ (encode i).extractLsb' 0 128 = i.operand ∧ decode (encode i) = .ok i

/-- The fields of the encoded word are the request's, whatever the operation. -/
theorem RoundTrip.of_request (i : Instr) : RoundTrip.Statement i := by
  have h := ofWord_word i.request
  have hd : decode (encode i) = .ok i := by
    simp only [decode, encode, h, Machine.decodeRequest_request]
  simp only [Request.ofWord, Instr.request, Request.mk.injEq] at h
  exact ⟨h.1, h.2, hd⟩

theorem RoundTrip.extendhfsf2 (a : OperandWord) : RoundTrip.Statement (.extendhfsf2 a) := of_request _
theorem RoundTrip.extendsfdf2 (a : OperandWord) : RoundTrip.Statement (.extendsfdf2 a) := of_request _
theorem RoundTrip.truncsfhf2 (a : OperandWord) : RoundTrip.Statement (.truncsfhf2 a) := of_request _
theorem RoundTrip.truncdfhf2 (a : OperandWord) : RoundTrip.Statement (.truncdfhf2 a) := of_request _
theorem RoundTrip.truncdfsf2 (a : OperandWord) : RoundTrip.Statement (.truncdfsf2 a) := of_request _
theorem RoundTrip.floattisf (a : OperandWord) : RoundTrip.Statement (.floattisf a) := of_request _
theorem RoundTrip.floattidf (a : OperandWord) : RoundTrip.Statement (.floattidf a) := of_request _
theorem RoundTrip.floatuntisf (a : OperandWord) : RoundTrip.Statement (.floatuntisf a) := of_request _
theorem RoundTrip.floatuntidf (a : OperandWord) : RoundTrip.Statement (.floatuntidf a) := of_request _

end Sys2Proof.Laws
end

