-- ==== Sys2Proof/Laws/Runs.lean ====
section
/-! SUPPORT. Runs of the machine, step by step. -/

namespace Sys2Proof.Machine

theorem run_zero (s : State) : runSteps 0 s = .next s := rfl

/-- A run of one step more, by its first step. -/
theorem run_succ {s t : State} (n : Nat) (h : step s = .next t) :
    runSteps (n + 1) s = runSteps n t := by
  have hs : Host.Core.step Sys2Proof.core s = .next t := h
  simp only [runSteps, Host.Core.run, hs]
  rfl

/-- A run that stops at its first step with a fault. -/
theorem run_succ_fault {s : State} {r : Fault} (n : Nat) (h : step s = .fault r) :
    runSteps (n + 1) s = .fault r := by
  have hs : Host.Core.step Sys2Proof.core s = .fault r := h
  simp only [runSteps, Host.Core.run, hs]
  rfl

/-- A run that stops at its first step with a refusal. -/
theorem run_succ_refused {s : State} {r : Refusal} (n : Nat) (h : step s = .refused r) :
    runSteps (n + 1) s = .refused r := by
  have hs : Host.Core.step Sys2Proof.core s = .refused r := h
  simp only [runSteps, Host.Core.run, hs]
  rfl

/-- Two runs, one after the other. -/
theorem run_add (m n : Nat) : ∀ {s t : State}, runSteps m s = .next t →
    runSteps (m + n) s = runSteps n t := by
  induction m with
  | zero => intro s t h; cases h; rw [Nat.zero_add]
  | succ m ih =>
    intro s t h
    rw [Nat.add_right_comm]
    cases hs : step s with
    | next s' => rw [run_succ _ hs] at h ⊢; exact ih h
    | fault r => rw [run_succ_fault _ hs] at h; cases h
    | refused r => rw [run_succ_refused _ hs] at h; cases h

end Sys2Proof.Machine
end

