-- ==== Sys2Proof/Tests/Slice0.lean ====
section
/-! SUPPORT. Tests of the model, with expected results from the spec (the vectors of spec/95_test_vectors.md and the examples of the
rules), and for each obligation that has hypotheses a concrete state and operands that meet them. -/

namespace Sys2Proof.Tests

open Sys2Proof.Machine

/-! ## Helpers -/

/-- The unit initialised and idle. -/
def ready : State :=
  { State.reset with tblReady := true, base := initBaseTable, shift := initShiftTable }

/-- The response of a step that answers a next state. -/
def rspOf (r : Result) : Option Response :=
  match r with
  | .next t => t.rsp
  | .fault _ => none
  | .refused _ => none

/-- The fault of a step that stops with one. -/
def faultOf (r : Result) : Option Fault :=
  match r with
  | .next _ => none
  | .fault f => some f
  | .refused _ => none

/-- The response to the request word `op ‖ a`, run as the first one after reset. -/
def respond (op : OpCode) (a : OperandWord) : Option Response :=
  rspOf (step (State.reset.withFetchWord 136 (op.toNat * 2 ^ 128 + a.toNat)))

/-! ## Decoding: words written out from the layout of R61 and the op codes of R65 -/

theorem test_decode_extendhfsf2 :
    decode 0x00123456789ABCDEF0123456789AB8001#132 = .ok (.extendhfsf2 0x0123456789ABCDEF0123456789AB8001#128) := by decide
theorem test_decode_extendsfdf2 :
    decode 0x1000000000000000000000000007FFFFF#132 = .ok (.extendsfdf2 0x007FFFFF#128) := by decide
theorem test_decode_truncsfhf2 :
    decode 0x200000000000000000000000033C00000#132 = .ok (.truncsfhf2 0x33C00000#128) := by decide
theorem test_decode_truncdfhf2 :
    decode 0x300000000000000007FF0000000000000#132 = .ok (.truncdfhf2 0x7FF0000000000000#128) := by decide
theorem test_decode_truncdfsf2 :
    decode 0x4FFFFFFFFFFFFFFFFFFFFFFFFFFFFFFFF#132 = .ok (.truncdfsf2 0xFFFFFFFFFFFFFFFFFFFFFFFFFFFFFFFF#128) := by decide
theorem test_decode_floattisf :
    decode 0x500000000000000000000000001000001#132 = .ok (.floattisf 0x1000001#128) := by decide
theorem test_decode_floattidf :
    decode 0x600000010000000000000000000000000#132 = .ok (.floattidf 0x00000010000000000000000000000000#128) := by decide
theorem test_decode_floatuntisf :
    decode 0x7000000000000000000000000FFFFFFFF#132 = .ok (.floatuntisf 0xFFFFFFFF#128) := by decide
theorem test_decode_floatuntidf :
    decode 0x80000000000000000003FFFFFFFFFFFFF#132 = .ok (.floatuntidf 0x3FFFFFFFFFFFFF#128) := by decide
theorem test_decode_reserved :
    decode 0x900000000000000000000000000003C00#132 = .error (.reservedOp 0x9#4) := by decide
/-- A bit above the one request length (R67). -/
theorem test_decode_too_long : decodeTableWord 136 (0x1 * 2 ^ 132) = none := by decide
/-- The encoder, on the request word of R88's example. -/
theorem test_encode_extendhfsf2 : encode (.extendhfsf2 0x3C00#128) = 0x000000000000000000000000000003C00#132 := by decide

/-! ## Well-formedness: each check refuses an ill-formed term -/

theorem test_wf_operation : Instr.wf (.floatuntidf 0xFFFFFFFFFFFFFFFFFFFFFFFFFFFFFFFF#128) = true := by decide
theorem test_wf_refuses_reserved_op : Request.wf { op := 0x9#4, a := 0#128 } = false := by decide
theorem test_wf_refuses_wide_literal : HostLine.wf 0 (.named .extendhfsf2 (.lit 0x10000#128)) = false := by decide
theorem test_wf_refuses_result_zero : HostLine.wf 3 (.named .floattisf (.result 0)) = false := by decide
theorem test_wf_refuses_later_result : HostLine.wf 1 (.raw 0x2#4 (.result 2)) = false := by decide
theorem test_wf_refuses_program_using_itself :
    programWf 0 [.named .extendhfsf2 (.lit 0x3C00#128), .named .truncsfhf2 (.result 2)] = false := by decide
theorem test_wf_program :
    programWf 0 [.named .extendhfsf2 (.lit 0x3C00#128), .named .truncsfhf2 (.result 1), .raw 0xF#4 (.lit 0#128)] = true := by
  decide

/-! ## Operations: vectors of spec/95_test_vectors.md and corner cases of the rules -/

theorem test_extendhfsf2_largest_subnormal : respond 0x0#4 0x03FF#128 = some (.ok 0x387FC000#64) := by decide +kernel
theorem test_extendhfsf2_nan_above_slice_ignored :
    respond 0x0#4 0xFFFFFFFFFFFFFFFFFFFFFFFFFFFF7C01#128 = some (.ok 0x7F802000#64) := by decide +kernel
theorem test_extendsfdf2_smallest_subnormal : respond 0x1#4 0x00000001#128 = some (.ok 0x36A0000000000000#64) := by
  decide +kernel
theorem test_extendsfdf2_nan_not_quieted : respond 0x1#4 0x7F800001#128 = some (.ok 0x7FF0000020000000#64) := by
  decide +kernel
/-- R113: a tie between odd and even, to even. -/
theorem test_truncsfhf2_tie_up : respond 0x2#4 0x3F803000#128 = some (.ok 0x3C02#64) := by decide +kernel
/-- R109, fourth row: the increment of 0xFFFF wraps. -/
theorem test_truncsfhf2_nan_wraps : respond 0x2#4 0xFFFFF000#128 = some (.ok 0x0000#64) := by decide +kernel
theorem test_truncdfhf2_unsupported : respond 0x3#4 0x3FF0000000000000#128 = some .unsupported := by decide +kernel
theorem test_truncdfsf2_unsupported : respond 0x4#4 0x7FF8000000000000#128 = some .unsupported := by decide +kernel
theorem test_floattisf_minus_one :
    respond 0x5#4 0xFFFFFFFFFFFFFFFFFFFFFFFFFFFFFFFF#128 = some (.ok 0xBF800000#64) := by decide +kernel
theorem test_floattisf_tie_down : respond 0x5#4 0x1000001#128 = some (.ok 0x4B800000#64) := by decide +kernel
/-- R141's example, which needs the mask of spec/90_conflicts.md C1. -/
theorem test_floattidf_two_to_100 :
    respond 0x6#4 0x00000010000000000000000000000000#128 = some (.ok 0x4630000000000000#64) := by decide +kernel
theorem test_floattidf_most_negative :
    respond 0x6#4 0x80000000000000000000000000000000#128 = some (.ok 0xC7E0000000000000#64) := by decide +kernel
theorem test_floatuntisf_carry : respond 0x7#4 0xFFFFFFFF#128 = some (.ok 0x4F800000#64) := by decide +kernel
theorem test_floatuntisf_infinity :
    respond 0x7#4 0xFFFFFF80000000000000000000000000#128 = some (.ok 0x7F800000#64) := by decide +kernel
theorem test_floatuntidf_exact : respond 0x8#4 0x1FFFFFFFFFFFFF#128 = some (.ok 0x433FFFFFFFFFFFFF#64) := by decide +kernel
theorem test_floatuntidf_carry : respond 0x8#4 0x3FFFFFFFFFFFFF#128 = some (.ok 0x4350000000000000#64) := by decide +kernel
theorem test_reserved_op : respond 0xF#4 0x3C00#128 = some .illegalOp := by decide +kernel

/-! ## Tables, reset and the ports: spec/95_test_vectors.md section 2.1 and the rules -/

theorem test_table_first_denormal : initBase 0x67 = 0x0001#16 ∧ initShift 0x67 = 23#8 := by decide
theorem test_table_first_overflow : initBase 0x8F = 0x7C00#16 ∧ initShift 0x8F = 24#8 := by decide
theorem test_table_negative_special : initBase 0x1FF = 0xFC00#16 ∧ initShift 0x1FF = 13#8 := by decide
/-- R30: an entry that holds no value is a model fault. -/
theorem test_unset_entry_faults :
    faultOf (exec (.truncsfhf2 0xBF800000#128) State.reset) = some (.tableEntryUnset 0x17F#9) := by decide +kernel
/-- R163, U2: the host may not read the result of an UNSUPPORTED response. -/
theorem test_missing_result_faults :
    faultOf (step { ready with
      delivered := [({ op := 0x3#4, a := 0#128 }, .unsupported)]
      program := [.named .extendhfsf2 (.result 1)]
      schedule := [{ rst := false, turn := .accept }] }) = some (.resultHasNoValue 1) := by decide +kernel
/-- R70: `@1` puts the first response's result in the operand. -/
theorem test_result_reference :
    offerLine [({ op := 0x0#4, a := 0x3C00#128 }, .ok 0x3F800000#64)] (.named .truncsfhf2 (.result 1)) =
      .request { op := 0x2#4, a := 0x3F800000#128 } := by decide

/-! ## Witnesses: the hypotheses of each obligation can be met together -/

theorem maxOutstanding_pos : 0 < Config.maxOutstanding := Nat.succ_pos _

theorem witness_DecodeAndEncodeAreInverse :
    Instr.wf (.floatuntidf 7#128) = true ∧ decode (0x8#4 ++ 7#128) = .ok (.floatuntidf 7#128) ∧
      encode (.floatuntidf 7#128) = encode (.floatuntidf 7#128) := by decide

/-- Op codes 0 and 8, and 9 and 15. -/
theorem witness_DecodingIsTotalOverOpCodes :
    ((0x0#4 ++ 5#128).extractLsb' 128 4).toNat ≤ 8 ∧ ((0x8#4 ++ 5#128).extractLsb' 128 4).toNat ≤ 8 ∧
      9 ≤ ((0x9#4 ++ 5#128).extractLsb' 128 4).toNat ∧ 9 ≤ ((0xF#4 ++ 5#128).extractLsb' 128 4).toNat := by decide

/-- The op codes above the table's: 9, and 255, the largest a row of 136 bits can hold. -/
theorem witness_OpcodeTableRowsDecode : (9 ≤ 9 ∧ 9 < 256) ∧ (9 ≤ 255 ∧ 255 < 256) := by decide

/-- Both ends of each class of exponent byte. -/
theorem witness_TableInitIsTheListing :
    (0x66 < 256 ∧ 0x66 ≤ 0x66) ∧ (0x67 ≤ 0x67 ∧ 0x70 ≤ 0x70) ∧ (0x71 ≤ 0x71 ∧ 0x8E ≤ 0x8E) ∧ (0x8F ≤ 0x8F ∧ 0xFE ≤ 0xFE) ∧
      0xFF < 256 := by decide

theorem ready_built : TablesBuilt ready := ⟨rfl, rfl⟩

/-- The invariant holds of the initialised, idle unit. -/
theorem ready_inv : MachineInv ready where
  built := fun _ => ready_built
  unset := fun h => nomatch h
  idle := fun _ => rfl
  room := Nat.zero_le _
  sound := fun _ h => nomatch h

theorem witness_TablesAreSignSymmetric : TablesBuilt ready ∧ 0xFF ≤ 0xFF := ⟨ready_built, le_rfl⟩

/-- A unit that is reset while a request is in flight, and initialised in the step after that. -/
def resetMidFlight : State :=
  { ready with
    inflight := [{ op := 0x2#4, a := 0x3F800000#128 }]
    schedule := [{ rst := true, turn := .respond }, { rst := false, turn := .init }] }

theorem witness_ResetAndInitialisedValues :
    resetMidFlight.schedule = { rst := true, turn := .respond } :: [{ rst := false, turn := .init }] ∧
      ([{ rst := false, turn := .init }] : List Slot) = { rst := false, turn := .init } :: [] := ⟨rfl, rfl⟩

theorem witness_ResetStepDiscardsInflight :
    resetMidFlight.schedule = { rst := true, turn := .respond } :: [{ rst := false, turn := .init }] ∧
      resetMidFlight.inflight ≠ [] := ⟨rfl, by simp [resetMidFlight]⟩

/-- Both clauses: a unit that is not initialised, and one that is. -/
theorem witness_InitialisationStepBuildsTables :
    (∃ s : State, s.schedule = [{ rst := false, turn := .init }] ∧ s.tblReady = false) ∧
      (∃ s : State, s.schedule = [{ rst := false, turn := .init }] ∧ s.tblReady = true) :=
  ⟨⟨{ State.reset with schedule := [{ rst := false, turn := .init }] }, rfl, rfl⟩,
    ⟨{ ready with schedule := [{ rst := false, turn := .init }] }, rfl, rfl⟩⟩

theorem witness_OnlyResetAndInitWriteTables : ∃ t, step resetMidFlight = .next t := ⟨_, rfl⟩

/-- The unit with one line on the port and the requester's turn next. -/
def offering (s : State) : State :=
  { s with program := [.raw 0xF#4 (.lit 1#128)], schedule := [{ rst := false, turn := .accept }] }

theorem witness_AcceptanceAppendsRequest :
    (offering ready).schedule = { rst := false, turn := .accept } :: [] ∧
      offer (offering ready) = .request { op := 0xF#4, a := 1#128 } ∧ (offering ready).tblReady = true ∧
      (offering ready).inflight.length < Config.maxOutstanding := ⟨rfl, rfl, rfl, maxOutstanding_pos⟩

/-- Both causes: the tables are not built, and INFLIGHT is full. -/
theorem witness_UnreadyUnitHoldsRequest :
    (offer (offering State.reset) = .request { op := 0xF#4, a := 1#128 } ∧ (offering State.reset).tblReady = false) ∧
      (∃ s : State, s.schedule = [{ rst := false, turn := .accept }] ∧ offer s = .request { op := 0xF#4, a := 1#128 } ∧
        s.tblReady = true ∧ Config.maxOutstanding ≤ s.inflight.length) :=
  ⟨⟨rfl, rfl⟩, ⟨{ offering ready with inflight := List.replicate Config.maxOutstanding { op := 0x0#4, a := 0#128 } },
    rfl, rfl, rfl, by simp⟩⟩

theorem witness_HeldRequestStaysOnPort :
    offer (offering State.reset) = .request { op := 0xF#4, a := 1#128 } ∧ ∃ t, step (offering State.reset) = .next t :=
  ⟨rfl, _, rfl⟩

/-- The requester needs response 1, which has not arrived, has a result, or has none. -/
def forwarding (d : List (Request × Response)) : State :=
  { ready with
    delivered := d
    program := [.named .truncsfhf2 (.result 1)]
    schedule := [{ rst := false, turn := .accept }] }

theorem witness_HostForwardsResultsItHasReceived :
    (∀ d, (forwarding d).schedule = { rst := false, turn := .accept } :: [] ∧
      (forwarding d).program = .named .truncsfhf2 (.result 1) :: [] ∧
      HostLine.operand (.named .truncsfhf2 (.result 1)) = .result (0 + 1)) ∧
    (forwarding []).delivered.length ≤ 0 ∧
    (forwarding [({ op := 0x0#4, a := 0#128 }, .ok 0#64)]).delivered[0]? = some ({ op := 0x0#4, a := 0#128 }, .ok 0#64) ∧
    (forwarding [({ op := 0x9#4, a := 0#128 }, .illegalOp)]).delivered[0]? = some ({ op := 0x9#4, a := 0#128 }, .illegalOp) ∧
    Response.result .illegalOp = none :=
  ⟨fun _ => ⟨rfl, rfl, rfl⟩, by simp [forwarding], rfl, rfl, rfl⟩

/-- The initialised unit with one request in flight and its own turn next. -/
def answering (q : Request) : State := { ready with inflight := [q], schedule := [{ rst := false, turn := .respond }] }

/-- With a schedule, and with none left. -/
theorem witness_ResponseStepRunsDecodedOperation :
    decode (Request.word { op := 0x2#4, a := 0x3F800000#128 }) = .ok (.truncsfhf2 0x3F800000#128) ∧
      (answering { op := 0x2#4, a := 0x3F800000#128 }).inflight = { op := 0x2#4, a := 0x3F800000#128 } :: [] ∧
      (answering { op := 0x2#4, a := 0x3F800000#128 }).schedule = { rst := false, turn := .respond } :: [] ∧
      ready.schedule = [] ∧ ready.tblReady = true :=
  ⟨by decide, rfl, rfl, rfl, rfl⟩

theorem witness_PlacedWordRunsNext : decodeTableWord 136 (0x2 * 2 ^ 128 + 0x3F800000) = some (.truncsfhf2 0x3F800000#128) := by
  decide

theorem witness_ResponseStepAnswersHead :
    TablesBuilt (answering { op := 0xF#4, a := 0#128 }) ∧
      (answering { op := 0xF#4, a := 0#128 }).schedule = { rst := false, turn := .respond } :: [] ∧
      (answering { op := 0xF#4, a := 0#128 }).inflight = { op := 0xF#4, a := 0#128 } :: [] := ⟨⟨rfl, rfl⟩, rfl, rfl⟩

/-- The first and the last reserved op code. -/
theorem witness_ReservedOpCodesAnswerIllegalOp :
    (answering { op := 0x9#4, a := 0#128 }).schedule = { rst := false, turn := .respond } :: [] ∧
      (answering { op := 0x9#4, a := 0#128 }).inflight = { op := 0x9#4, a := 0#128 } :: [] ∧ 9 ≤ (0x9#4).toNat ∧
      9 ≤ (0xF#4).toNat := ⟨rfl, rfl, by decide, by decide⟩

/-- A request of each status. -/
theorem witness_StatusFollowsFromOpCode :
    (∃ t, runRequest { op := 0x3#4, a := 0#128 } ready = .next t) ∧ (∃ t, runRequest { op := 0x9#4, a := 0#128 } ready = .next t) ∧
      (∃ t, runRequest { op := 0x8#4, a := 0#128 } ready = .next t) := ⟨⟨_, rfl⟩, ⟨_, rfl⟩, ⟨_, rfl⟩⟩

theorem witness_UnsupportedNarrowingsAlwaysFail :
    (∃ t, runRequest { op := 0x4#4, a := 0#128 } ready = .next t) ∧ (∃ t, runRequest { op := 0x5#4, a := 0#128 } ready = .next t) :=
  ⟨⟨_, rfl⟩, ⟨_, rfl⟩⟩

/-- A step without a response, and one with one. -/
theorem witness_ResponsePortShowsThisStepsResponse :
    (∃ t, step ready = .next t) ∧ (∃ t, step (answering { op := 0x8#4, a := 1#128 }) = .next t) := ⟨⟨_, rfl⟩, ⟨_, rfl⟩⟩

theorem witness_ResponsesComeInAcceptanceOrder :
    (∃ t, step (answering { op := 0x8#4, a := 1#128 }) = .next t) ∧
      (nextSlot (answering { op := 0x8#4, a := 1#128 })).rst = false := ⟨⟨_, rfl⟩, rfl⟩

theorem ready_answers_truncsfhf2 (a : OperandWord) :
    exec (.truncsfhf2 a) ready = .next (answered 0x2#4 a (.ok ((narrowSingle (a.extractLsb' 0 32)).setWidth 64)) ready) :=
  exec_of_built ready_built _

theorem witness_OperationsChangeOnlyTheResponse : ∃ t, exec (.truncsfhf2 0x3F800000#128) ready = .next t :=
  ⟨_, ready_answers_truncsfhf2 _⟩

theorem witness_ResponsesDependOnTablesOnly :
    (∃ t, exec (.truncsfhf2 0x3F800000#128) ready = .next t) ∧ ready.base = (answering { op := 0x0#4, a := 0#128 }).base ∧
      ready.shift = (answering { op := 0x0#4, a := 0#128 }).shift := ⟨⟨_, ready_answers_truncsfhf2 _⟩, rfl, rfl⟩

/-- Operands that differ from 0 only just above the slice of each operation. -/
theorem witness_OperandBitsAboveSliceAreIgnored :
    (0x10000#128).extractLsb' 0 16 = (0#128).extractLsb' 0 16 ∧ (0x100000000#128).extractLsb' 0 32 = (0#128).extractLsb' 0 32 ∧
      (∃ t, exec (.extendhfsf2 0x10000#128) ready = .next t) ∧ (∃ t, exec (.extendsfdf2 0x100000000#128) ready = .next t) ∧
      (∃ t, exec (.truncsfhf2 0x100000000#128) ready = .next t) ∧ (∃ t, exec (.truncdfhf2 1#128) ready = .next t) ∧
      (∃ t, exec (.truncdfsf2 1#128) ready = .next t) :=
  ⟨by decide, by decide, ⟨_, rfl⟩, ⟨_, rfl⟩, ⟨_, ready_answers_truncsfhf2 _⟩, ⟨_, rfl⟩, ⟨_, rfl⟩⟩

theorem witness_ResultBitsAboveSliceAreZero :
    (∃ t r, exec (.extendhfsf2 0xFFFF#128) ready = .next t ∧ t.rsp = some (.ok r)) ∧
      (∃ t r, exec (.truncsfhf2 0xFF800000#128) ready = .next t ∧ t.rsp = some (.ok r)) ∧
      (∃ t r, exec (.floattisf 1#128) ready = .next t ∧ t.rsp = some (.ok r)) ∧
      (∃ t r, exec (.floatuntisf 1#128) ready = .next t ∧ t.rsp = some (.ok r)) :=
  ⟨⟨_, _, rfl, rfl⟩, ⟨_, _, ready_answers_truncsfhf2 _, rfl⟩, ⟨_, _, rfl, rfl⟩, ⟨_, _, rfl, rfl⟩⟩

/-- The fields of an operand of each case: zero; the smallest and the largest subnormal; the smallest and the largest normal;
infinity; the smallest NaN. -/
theorem witness_ExtendhfsfResultByCase :
    (0x8000 / 2 ^ 10 % 2 ^ 5 = 0 ∧ 0x8000 % 2 ^ 10 = 0) ∧ (0x0001 / 2 ^ 10 % 2 ^ 5 = 0 ∧ 2 ^ 0 ≤ 0x0001 % 2 ^ 10 ∧ 0x0001 % 2 ^ 10 < 2 ^ 1) ∧
      (0x03FF / 2 ^ 10 % 2 ^ 5 = 0 ∧ 2 ^ 9 ≤ 0x03FF % 2 ^ 10 ∧ 0x03FF % 2 ^ 10 < 2 ^ 10) ∧
      (0 < 0x0400 / 2 ^ 10 % 2 ^ 5 ∧ 0x0400 / 2 ^ 10 % 2 ^ 5 < 0x1F) ∧ (0 < 0x7BFF / 2 ^ 10 % 2 ^ 5 ∧ 0x7BFF / 2 ^ 10 % 2 ^ 5 < 0x1F) ∧
      (0x7C00 / 2 ^ 10 % 2 ^ 5 = 0x1F ∧ 0x7C00 % 2 ^ 10 = 0) ∧ (0x7C01 / 2 ^ 10 % 2 ^ 5 = 0x1F ∧ 0x7C01 % 2 ^ 10 ≠ 0) := by decide

theorem witness_ExtendsfdfResultByCase :
    (0x80000000 / 2 ^ 23 % 2 ^ 8 = 0 ∧ 0x80000000 % 2 ^ 23 = 0) ∧
      (0x00000001 / 2 ^ 23 % 2 ^ 8 = 0 ∧ 2 ^ 0 ≤ 0x00000001 % 2 ^ 23 ∧ 0x00000001 % 2 ^ 23 < 2 ^ 1) ∧
      (0x007FFFFF / 2 ^ 23 % 2 ^ 8 = 0 ∧ 2 ^ 22 ≤ 0x007FFFFF % 2 ^ 23 ∧ 0x007FFFFF % 2 ^ 23 < 2 ^ 23) ∧
      (0 < 0x00800000 / 2 ^ 23 % 2 ^ 8 ∧ 0x00800000 / 2 ^ 23 % 2 ^ 8 < 0xFF) ∧
      (0 < 0x7F7FFFFF / 2 ^ 23 % 2 ^ 8 ∧ 0x7F7FFFFF / 2 ^ 23 % 2 ^ 8 < 0xFF) ∧
      (0x7F800000 / 2 ^ 23 % 2 ^ 8 = 0xFF ∧ 0x7F800000 % 2 ^ 23 = 0) ∧
      (0x7F800001 / 2 ^ 23 % 2 ^ 8 = 0xFF ∧ 0x7F800001 % 2 ^ 23 ≠ 0) := by decide

/-- The largest finite patterns. -/
theorem witness_WideningKeepsValueAndSign : isFinite .half (0x7BFF#16).toNat ∧ isFinite .single (0x7F7FFFFF#32).toNat := by
  unfold isFinite; decide

/-- The infinities and the smallest NaNs. -/
theorem witness_WideningKeepsInfinitiesAndNaNs :
    isInfinity .half (0xFC00#16).toNat ∧ isNaN .half (0x7C01#16).toNat ∧ isInfinity .single (0xFF800000#32).toNat ∧
      isNaN .single (0x7F800001#32).toNat := by
  unfold isInfinity isNaN; decide

theorem witness_TruncsfhfAnswersOnceTablesAreBuilt : TablesBuilt ready ∧ TablesUnset State.reset := ⟨ready_built, rfl, rfl⟩

/-- The entries of key 0x07F, of the example of R100. -/
theorem witness_TruncsfhfFollowsItsTableEntries :
    ready.base[(0x3F800000#128).toNat / 2 ^ 23 % 512]? = some (some 0x3C00#16) ∧
      ready.shift[(0x3F800000#128).toNat / 2 ^ 23 % 512]? = some (some 13#8) ∧ 1 ≤ (13#8).toNat := by decide +kernel

/-- Both ends of each key class. -/
theorem witness_TruncsfhfResultByKeyClass :
    TablesBuilt ready ∧ 0x337FFFFF / 2 ^ 23 % 2 ^ 8 = 0x66 ∧ 0x33800000 / 2 ^ 23 % 2 ^ 8 = 0x67 ∧ 23 = 126 - 0x67 ∧
      0x387FFFFF / 2 ^ 23 % 2 ^ 8 = 0x70 ∧ 14 = 126 - 0x70 ∧ 0x38800000 / 2 ^ 23 % 2 ^ 8 = 0x71 ∧
      0x477FFFFF / 2 ^ 23 % 2 ^ 8 = 0x8E ∧ 0x47800000 / 2 ^ 23 % 2 ^ 8 = 0x8F ∧ 0x7F7FFFFF / 2 ^ 23 % 2 ^ 8 = 0xFE ∧
      0x7F800000 / 2 ^ 23 % 2 ^ 8 = 0xFF := ⟨ready_built, by decide⟩

/-- Key class 0x66 with m = 0, m = 1 and m all ones. -/
theorem witness_NarrowingDepartsBelowSmallestSubnormal :
    (expOf .single (0x33000000#32).toNat = 0x66 ∧ mantOf .single (0x33000000#32).toNat = 0) ∧
      (expOf .single (0x33000001#32).toNat = 0x66 ∧ mantOf .single (0x33000001#32).toNat ≠ 0) ∧
      (expOf .single (0xB37FFFFF#32).toNat = 0x66 ∧ mantOf .single (0xB37FFFFF#32).toNat ≠ 0) := by decide

/-- The inputs next to the excluded ones: 2^-25 itself, and 2^-24. -/
theorem witness_NarrowingIsCorrectlyRoundedElsewhere :
    (isFinite .single (0x33000000#32).toNat ∧
      ¬ (expOf .single (0x33000000#32).toNat = 0x66 ∧ mantOf .single (0x33000000#32).toNat ≠ 0)) ∧
    (isFinite .single (0x33800000#32).toNat ∧
      ¬ (expOf .single (0x33800000#32).toNat = 0x66 ∧ mantOf .single (0x33800000#32).toNat ≠ 0)) := by
  unfold isFinite; decide

/-- 65520 itself, and the pattern below it. -/
theorem witness_NarrowingOverflowsFrom65520 :
    isFinite .single (0xC77FF000#32).toNat ∧ 0x477FF000 ≤ (0xC77FF000#32).toNat % 2 ^ 31 ∧
      isFinite .single (0x477FEFFF#32).toNat ∧ (0x477FEFFF#32).toNat % 2 ^ 31 < 0x477FF000 := by
  unfold isFinite; decide

/-- Both ends of each row of R109. -/
theorem witness_NarrowingOfInfinityAndNaN :
    expOf .single (0x7F800000#32).toNat = 0xFF ∧ 0x000000 ≤ 0x001000 ∧ expOf .single (0x7F801000#32).toNat = 0xFF ∧
      expOf .single (0x7F801001#32).toNat = 0xFF ∧ 0x001001 ≤ 0x7FEFFF ∧ expOf .single (0xFFFFEFFF#32).toNat = 0xFF ∧
      expOf .single (0xFFFFF000#32).toNat = 0xFF ∧ 0x7FF000 ≤ 0x7FFFFF := by decide

/-- The NaNs on both sides of the limit of R112. -/
theorem witness_NarrowingKeepsSignExceptWrappingNaNs :
    ¬ (expOf .single (0xFFFFEFFF#32).toNat = 0xFF ∧ 0x7FF000 ≤ mantOf .single (0xFFFFEFFF#32).toNat) ∧
      (expOf .single (0xFFFFF000#32).toNat = 0xFF ∧ 0x7FF000 ≤ mantOf .single (0xFFFFF000#32).toNat) := by decide

/-- 1.5 · 2^-24 lies halfway between the first and the second subnormal (spec/95_test_vectors.md X9), and 65520 is the other kind of
tie. -/
theorem witness_NarrowingTiesGoToEven :
    (isFinite .single (0x33C00000#32).toNat ∧ isFinite .half 1 ∧ isFinite .half 2 ∧ value .half 1 < value .half 2 ∧
      (∀ c : Nat, c < 2 ^ 16 → isFinite .half c → ¬ (value .half 1 < value .half c ∧ value .half c < value .half 2)) ∧
      2 * value .single (0x33C00000#32).toNat = value .half 1 + value .half 2) ∧
    (isFinite .single (0x477FF000#32).toNat ∧ |value .single (0x477FF000#32).toNat| = 65520) := by
  have h1 : value .half 1 = 2 ^ (-24 : ℤ) := by
    rw [value_of_sign_zero (by decide), magnitude_of_subnormal (by decide), show mantOf .half 1 = 1 by decide]
    norm_num [leastUnit, Format.half]
  have h2 : value .half 2 = 2 * 2 ^ (-24 : ℤ) := by
    rw [value_of_sign_zero (by decide), magnitude_of_subnormal (by decide), show mantOf .half 2 = 2 by decide]
    norm_num [leastUnit, Format.half]
  have hf : value .single 0x33C00000 = 3 * 2 ^ (-25 : ℤ) := by
    rw [value_of_sign_zero (by decide), magnitude_of_normal (by decide), show mantOf .single 0x33C00000 = 2 ^ 22 by decide,
      show expOf .single 0x33C00000 = 103 by decide]
    norm_num [Format.single]
  have hg : value .single 0x477FF000 = 65520 := by
    rw [value_of_sign_zero (by decide), magnitude_of_normal (by decide), show mantOf .single 0x477FF000 = 0x7FF000 by decide,
      show expOf .single 0x477FF000 = 0x8E by decide]
    norm_num [Format.single]
  refine ⟨⟨by unfold isFinite; decide, by unfold isFinite; decide, by unfold isFinite; decide, ?_, ?_, ?_⟩,
    by unfold isFinite; decide, ?_⟩
  · rw [h1, h2]; norm_num
  · intro c _ _ ⟨hlo, hhi⟩
    obtain ⟨k, hk⟩ := magnitude_on_least_grid .half c
    have hu : leastUnit .half = 2 ^ (-24 : ℤ) := by norm_num [leastUnit, Format.half]
    have hm := magnitude_nonneg .half c
    rw [h1] at hlo
    rw [h2] at hhi
    have hpos : (0 : ℚ) < 2 ^ (-24 : ℤ) := by positivity
    rcases value_cases .half c with h | h
    · rw [h.2, hk, hu] at hlo hhi
      generalize (2 : ℚ) ^ (-24 : ℤ) = u at *
      have a1 : (1 : ℚ) < k := by nlinarith
      have a2 : (k : ℚ) < 2 := by nlinarith
      have b1 : 1 < k := by exact_mod_cast a1
      have b2 : k < 2 := by exact_mod_cast a2
      omega
    · rw [h.2] at hlo
      linarith
  · change 2 * value .single 0x33C00000 = _
    rw [hf, h1, h2]; norm_num
  · change |value .single 0x477FF000| = _
    rw [hg]; norm_num

/-- The longest exact integers of each target. -/
theorem witness_ShortIntegersConvertExactly :
    (0xFFFFFF#128).toNat < 2 ^ 24 ∧ (0x1FFFFFFFFFFFFF#128).toNat < 2 ^ 53 ∧
      (BitVec.ofInt 128 (-0xFFFFFF)).toInt.natAbs < 2 ^ 24 ∧ (BitVec.ofInt 128 (-0x1FFFFFFFFFFFFF)).toInt.natAbs < 2 ^ 53 := by
  decide

/-- The shortest integers of each clause, and the longest with the fewest ones. -/
theorem witness_LeadingOnesCarryIntoTheExponent :
    ((0x1FFFFFF#128).toNat < 2 ^ 25 ∧ 25 ≤ 128 ∧ 2 ^ 25 - 2 ^ (25 - 25) ≤ (0x1FFFFFF#128).toNat) ∧
      ((0x3FFFFFFFFFFFFF#128).toNat < 2 ^ 54 ∧ 54 ≤ 128 ∧ 2 ^ 54 - 2 ^ (54 - 54) ≤ (0x3FFFFFFFFFFFFF#128).toNat) ∧
      (0xFFFFFF80000000000000000000000000#128).toNat < 2 ^ 128 ∧
      2 ^ 128 - 2 ^ (128 - 25) ≤ (0xFFFFFF80000000000000000000000000#128).toNat := by decide

/-- The first integer that gives +infinity. -/
theorem witness_IntegerResultRange : 2 ^ 128 - 2 ^ 103 ≤ (0xFFFFFF80000000000000000000000000#128).toNat := by decide

theorem witness_EveryStepKeepsTheInvariant : ∃ s t, MachineInv s ∧ step s = .next t := ⟨ready, _, ready_inv, rfl⟩

/-- A state that meets the invariant and whose next step reads a result that has no value. -/
def readsMissingResult : State := forwarding [({ op := 0x3#4, a := 0#128 }, .unsupported)]

theorem witness_RunsStopOnlyOnReadingAMissingResult :
    (MachineInv readsMissingResult ∧ runSteps 1 readsMissingResult = .fault (.resultHasNoValue 1)) ∧
      (MachineInv ready ∧ literalProgram ready.program = true) :=
  ⟨⟨{ built := fun _ => ⟨rfl, rfl⟩
      unset := fun h => nomatch h
      idle := fun _ => rfl
      room := Nat.zero_le _
      sound := fun p hp => by rw [List.mem_singleton.mp hp]; rfl }, rfl⟩, ready_inv, rfl⟩

/-- A unit with a line to present, a request in flight and a step scheduled. -/
def busy : State :=
  { ready with
    inflight := [{ op := 0x5#4, a := 1#128 }]
    program := [.named .truncsfhf2 (.lit 0x3F800000#128)]
    schedule := [{ rst := false, turn := .accept }] }

theorem busy_inv : MachineInv busy where
  built := fun _ => ⟨rfl, rfl⟩
  unset := fun h => nomatch h
  idle := fun h => nomatch h
  room := maxOutstanding_pos
  sound := fun _ h => nomatch h

theorem witness_EveryRunBecomesQuiescent : MachineInv busy ∧ literalProgram busy.program = true := ⟨busy_inv, rfl⟩

theorem witness_EveryScheduleGivesTheSameObservation :
    MachineInv busy ∧ literalProgram busy.program = true ∧ ∀ slot ∈ busy.schedule, slot.rst = false :=
  ⟨busy_inv, rfl, fun slot h => by rw [List.mem_singleton.mp h]⟩

/-- The shortest wait and a longer one, for both clauses. -/
theorem witness_LatencyAndInitStepsAreFree :
    (∀ n : Nat, 1 ≤ n → ∃ s : State, s.tblReady = false ∧ s.inflight = [] ∧
      s.schedule = List.replicate (n - 1) { rst := false, turn := .respond } ++ [{ rst := false, turn := .init }]) ∧
    (∀ n : Nat, 1 ≤ n → ∃ (s : State) (q : Request), s.tblReady = true ∧ TablesBuilt s ∧ s.inflight = [q] ∧
      s.schedule = List.replicate (n - 1) { rst := false, turn := .init } ++ [{ rst := false, turn := .respond }]) :=
  ⟨fun n _ => ⟨{ State.reset with
      schedule := List.replicate (n - 1) { rst := false, turn := .respond } ++ [{ rst := false, turn := .init }] }, rfl, rfl, rfl⟩,
    fun n _ => ⟨{ ready with
      inflight := [{ op := 0xF#4, a := 0#128 }]
      schedule := List.replicate (n - 1) { rst := false, turn := .init } ++ [{ rst := false, turn := .respond }] },
      { op := 0xF#4, a := 0#128 }, rfl, ready_built, rfl, rfl⟩⟩

theorem witness_QuiescentUnitStaysQuiescent : Quiescent ready ∧ ready.program = [] ∧ ready.schedule = [] :=
  ⟨⟨rfl, rfl⟩, rfl, rfl⟩

end Sys2Proof.Tests
end

section
/-! PROOFS. The integer conversions round correctly (O42, O43). -/

namespace Sys2Proof.Machine

theorem overflowBound_pos (f : Format) : 0 < overflowBound f := by
  have h : (1 / 2 : ℚ) ^ (f.M + 1) ≤ 1 := pow_le_one₀ (by norm_num) (by norm_num)
  exact mul_pos (by positivity) (by linarith)

/-- The integer that the operand of a conversion stands for (R132). -/
def integerValue (signed : Bool) (X : BitVec 128) : ℤ := if signed then X.toInt else X.toNat

/-- The sign and the magnitude (R132) are those of the integer. -/
theorem signMagnitude_eq (signed : Bool) (X : BitVec 128) :
    signMagnitude signed X = (if integerValue signed X < 0 then 1 else 0, (integerValue signed X).natAbs) := by
  cases signed with
  | false => simp [integerValue]
  | true => simpa [integerValue] using signMagnitude_signed X

theorem integerValue_ne_zero {signed : Bool} {X : BitVec 128} (hX : X ≠ 0#128) : integerValue signed X ≠ 0 := by
  cases signed with
  | false => simpa [integerValue, BitVec.toNat_eq] using hX
  | true => simpa [integerValue, ← BitVec.toInt_inj] using hX

theorem integerValue_natAbs_lt (signed : Bool) (X : BitVec 128) : (integerValue signed X).natAbs < 2 ^ 128 := by
  cases signed with
  | false => simpa [integerValue] using X.isLt
  | true =>
    have h1 := BitVec.toInt_lt (x := X)
    have h2 := BitVec.le_toInt X
    simp only [integerValue, if_true]
    omega

/-- The engine (R130 to R138) gives the integer correctly rounded, in any format whose range begins with that of binary32. -/
theorem intToFloat_correctlyRounded {f : Format} (hf : Proper f) (h127 : 127 ≤ f.B) (hB : Biased f) (signed : Bool)
    (X : BitVec 128) :
    CorrectlyRounded f (integerValue signed X : ℚ) (intToFloat signed f.M f.B (f.E + f.M + 1) X) := by
  by_cases hX : X = 0#128
  · have hE : 1 < f.E := by
      by_contra h
      have h1 : f.E = 1 := by have := hf.1; omega
      simp [Biased, h1] at hB
      omega
    have h0 : integerValue signed 0#128 = 0 := by cases signed <;> rfl
    rw [hX, h0, intToFloat, if_pos rfl, Int.cast_zero]
    exact zero_correctlyRounded hf hE (overflowBound_pos f)
  · have hne := integerValue_ne_zero (signed := signed) hX
    rw [intToFloat_of_ne_zero f hX, signMagnitude_eq]
    dsimp only
    have h := magnitude_correctlyRounded hf h127 hB (Int.natAbs_ne_zero.mpr hne) (integerValue_natAbs_lt signed X)
      (s := if integerValue signed X < 0 then 1 else 0) (by split <;> omega)
    convert h using 1
    rw [Nat.cast_natAbs]
    by_cases hneg : integerValue signed X < 0
    · rw [if_pos hneg, if_pos rfl, abs_of_neg hneg, Int.cast_neg, neg_neg]
    · rw [if_neg hneg, if_neg zero_ne_one, abs_of_nonneg (not_lt.mp hneg)]

theorem intToSingle_correctlyRounded (signed : Bool) (X : BitVec 128) :
    CorrectlyRounded .single (integerValue signed X : ℚ) (intToSingle signed X).toNat := by
  have h := intToFloat_correctlyRounded single_proper (by decide) (by decide) signed X
  have hlt : intToFloat signed 23 127 32 X < 2 ^ 32 := h.1
  rw [intToSingle, BitVec.toNat_ofNat, Nat.mod_eq_of_lt hlt]
  exact h

theorem intToDouble_correctlyRounded (signed : Bool) (X : BitVec 128) :
    CorrectlyRounded .double (integerValue signed X : ℚ) (intToDouble signed X).toNat := by
  have h := intToFloat_correctlyRounded double_proper (by decide) (by decide) signed X
  have hlt : intToFloat signed 52 1023 64 X < 2 ^ 64 := h.1
  rw [intToDouble, BitVec.toNat_ofNat, Nat.mod_eq_of_lt hlt]
  exact h

/-- Settles O42: both engines round the two's-complement value correctly. -/
theorem signedIntegersAreCorrectlyRounded : Obligations.SignedIntegersAreCorrectlyRounded := fun a _ =>
  ⟨_, _, rfl, rfl, intToSingle_correctlyRounded true a, intToDouble_correctlyRounded true a⟩

/-- Settles O43: both engines round the unsigned value correctly. -/
theorem unsignedIntegersAreCorrectlyRounded : Obligations.UnsignedIntegersAreCorrectlyRounded := fun a _ =>
  ⟨_, _, rfl, rfl, intToSingle_correctlyRounded false a, intToDouble_correctlyRounded false a⟩

end Sys2Proof.Machine
end

section
/-! PROOFS. Waiting: turns that are not enabled, in any number, and the turn that ends the wait (O53). -/

namespace Sys2Proof.Machine

/-- On built tables the unit's turn answers the head of INFLIGHT as the spec says. -/
theorem respondTurn_of_built {s : State} (hb : TablesBuilt s) {q : Request} {qs : List Request} (h : s.inflight = q :: qs) :
    respondTurn s = .next (deliver q (specResponse q) (takeHead s)) := by
  rw [respondTurn_of_cons h]
  exact runRequest_of_built (s := takeHead s) hb q

/-- The schedule of a wait: `k` turns of an agent whose step is not enabled pass, and nothing of the unit or of the observation
changes; the response port is empty once a step has passed. -/
theorem run_of_idle_turns {tn : Turn} {rest : List Slot} (k : Nat) : ∀ {s : State},
    (∀ t : State, t.tblReady = s.tblReady → t.inflight = s.inflight → takeTurn tn t = .next t) →
    s.schedule = List.replicate k { rst := false, turn := tn } ++ rest →
    ∃ p, runSteps k s = .next { s with rsp := p, schedule := rest } := by
  induction k with
  | zero => intro s _ hs; exact ⟨s.rsp, by rw [run_zero, show rest = s.schedule from hs.symm]⟩
  | succ k ih =>
    intro s hidle hs
    rw [List.replicate_succ, List.cons_append] at hs
    have hstep : step s = .next (beginStep s) := by rw [step_of_turn hs]; exact hidle _ rfl rfl
    obtain ⟨p, hp⟩ := ih (s := beginStep s) hidle (by simp [hs])
    exact ⟨p, by rw [run_succ k hstep, hp]; rfl⟩

/-- A wait ends in the turn of another agent: before it the unit and the observation stand still, and then that turn is taken. -/
theorem run_of_wait_then_turn {idle act : Turn} {n : Nat} (hn : 1 ≤ n) {s : State}
    (hidle : ∀ t : State, t.tblReady = s.tblReady → t.inflight = s.inflight → takeTurn idle t = .next t)
    (hs : s.schedule = List.replicate (n - 1) { rst := false, turn := idle } ++ [{ rst := false, turn := act }]) :
    (∀ j : Nat, j < n → ∃ p rest, runSteps j s = .next { s with rsp := p, schedule := rest }) ∧
    (∀ t, takeTurn act { s with rsp := none, schedule := [] } = .next t → runSteps n s = .next t) := by
  constructor
  · intro j hj
    obtain ⟨p, hp⟩ := run_of_idle_turns j hidle
      (rest := List.replicate (n - 1 - j) { rst := false, turn := idle } ++ [{ rst := false, turn := act }])
      (by rw [hs, ← List.append_assoc, List.replicate_append_replicate, Nat.add_sub_cancel' (by omega)])
    exact ⟨p, _, hp⟩
  · intro t ht
    obtain ⟨p, hp⟩ := run_of_idle_turns (n - 1) hidle hs
    have hlast : step { s with rsp := p, schedule := [{ rst := false, turn := act }] } = .next t := by
      rw [step_of_turn rfl]; exact ht
    rw [← Nat.sub_add_cancel hn, run_add _ _ hp, run_succ 0 hlast, run_zero]

/-- Settles O53: the wait before the initialisation step is of response turns with nothing in flight, the wait before the response of
initialisation turns of a unit that is ready. -/
theorem latencyAndInitStepsAreFree : Obligations.LatencyAndInitStepsAreFree := by
  intro n s hn
  constructor
  · intro hready hinflight hs
    obtain ⟨hwait, hinit⟩ := run_of_wait_then_turn (idle := .respond) (act := .init) hn
      (fun _ _ hi => respondTurn_of_nil (hi.trans hinflight)) hs
    refine ⟨fun j hj => ?_, _, hinit _ (initTurn_of_not_ready hready), rfl⟩
    obtain ⟨p, rest, h⟩ := hwait j hj
    exact ⟨_, h, hready⟩
  · intro q hready hbuilt hinflight hs
    obtain ⟨hwait, hrespond⟩ := run_of_wait_then_turn (idle := .init) (act := .respond) hn
      (fun _ hr _ => initTurn_of_ready (hr.trans hready)) hs
    have hanswer := respondTurn_of_built (s := { s with rsp := none, schedule := [] }) hbuilt hinflight
    refine ⟨fun j hj => ?_, _, hrespond _ hanswer, rfl⟩
    obtain ⟨p, rest, h⟩ := hwait j hj
    exact ⟨_, h, rfl⟩

end Sys2Proof.Machine
end

section
/-! PROOFS. Rounding to nearest by steps of a grid, and what a tie forces, for any format. -/

namespace Sys2Proof.Machine

/-! ### Patterns as steps of a grid -/

theorem two_pow_mul_zpow (i : Nat) (t : ℤ) : (2 : ℚ) ^ i * 2 ^ t = 2 ^ ((i : ℤ) + t) := by
  rw [zpow_add₀ (by norm_num), zpow_natCast]

theorem flipSign_compose {f : Format} (hf : Proper f) {s e m : Nat} (hs : s < 2) (he : e < 2 ^ f.E) (hm : m < 2 ^ f.M) :
    flipSign f (compose f s e m) = compose f (1 - s) e m := by
  rw [flipSign, signOf_compose hs he hm, expOf_compose hf he hm, mantOf_compose hf hm]

/-- A sign in front of a rounded magnitude: the pattern that rounds x, with the sign s, rounds the value of that sign. -/
theorem correctlyRounded_of_magnitude {f : Format} (hf : Proper f) {x : ℚ} {s e m : Nat} (hs : s < 2) (he : e < 2 ^ f.E)
    (hm : m < 2 ^ f.M) (hx : 0 ≤ x) (hnear : x < overflowBound f → NearestEven f x (compose f 0 e m))
    (hinf : overflowBound f ≤ x → e = 2 ^ f.E - 1 ∧ m = 0) :
    CorrectlyRounded f ((-1) ^ s * x) (compose f s e m) := by
  have habs : |(-1) ^ s * x| = x := by rw [abs_mul, abs_neg_one_pow, one_mul, abs_of_nonneg hx]
  refine ⟨compose_lt hs he hm, fun hb => ?_, fun hb => ?_⟩
  · have hn := hnear (habs ▸ hb)
    obtain rfl | rfl : s = 0 ∨ s = 1 := by omega
    · simpa using hn
    · have hflip := hn.flipSign hf
      rw [flipSign_compose hf (by norm_num) he hm] at hflip
      simpa using hflip
  · rw [habs] at hb
    obtain ⟨rfl, rfl⟩ := hinf hb
    have hpos := (overflowBound_pos f).trans_le hb
    have hsign : (if (-1) ^ s * x < 0 then 1 else 0) = s := by
      obtain rfl | rfl : s = 0 ∨ s = 1 := by omega
      · simpa using hx
      · simpa using hpos
    rw [hsign, infinityOf, compose, add_zero]

/-- A number q of steps from `j * 2^M`, where a carry out of the mantissa raises the exponent field, is q steps of `2^j` least
units. -/
theorem magnitude_of_steps {f : Format} (hf : Proper f) {s j q : Nat} (hq : q ≤ 2 ^ (f.M + 1)) (hj : j = 0 ∨ 2 ^ f.M ≤ q)
    (he : j + q / 2 ^ f.M < 2 ^ f.E) :
    magnitude f (compose f s (j + q / 2 ^ f.M) (q % 2 ^ f.M)) = q * ((2 : ℚ) ^ j * leastUnit f) := by
  have hm : q % 2 ^ f.M < 2 ^ f.M := Nat.mod_lt _ (by positivity)
  have hdiv := Nat.div_add_mod q (2 ^ f.M)
  by_cases hlt : q < 2 ^ f.M
  · have hj0 : j = 0 := by omega
    subst hj0
    rw [Nat.div_eq_of_lt hlt] at he ⊢
    rw [magnitude_of_subnormal (expOf_compose hf he hm), mantOf_compose hf hm, Nat.mod_eq_of_lt hlt, pow_zero, one_mul]
  · -- the exponent field is j + 1, or j + 2 after a carry
    have hcarry : q / 2 ^ f.M = 1 ∨ q / 2 ^ f.M = 2 ∧ q % 2 ^ f.M = 0 := by
      have h1 : 1 ≤ q / 2 ^ f.M := (Nat.one_le_div_iff (by positivity)).mpr (not_lt.mp hlt)
      have h2 : q / 2 ^ f.M ≤ 2 := Nat.div_le_of_le_mul (by rw [pow_succ] at hq; exact hq)
      have h3 : q / 2 ^ f.M = 2 → q % 2 ^ f.M = 0 := fun h => by rw [h] at hdiv; rw [pow_succ] at hq; omega
      omega
    have hsteps : (2 ^ f.M + q % 2 ^ f.M) * 2 ^ (q / 2 ^ f.M - 1) = q := by
      rcases hcarry with h | ⟨h, h0⟩
      · rw [h] at hdiv ⊢; omega
      · rw [h] at hdiv ⊢; omega
    have hQ : 1 ≤ q / 2 ^ f.M := by omega
    rw [magnitude_of_normal (by rw [expOf_compose hf he hm]; omega), expOf_compose hf he hm, mantOf_compose hf hm]
    conv_rhs => rw [← hsteps]
    rw [Nat.cast_mul _ (2 ^ _), mul_assoc, leastUnit]
    congr 1
    rw [Nat.cast_pow, Nat.cast_ofNat, two_pow_mul_zpow, two_pow_mul_zpow]
    congr 1
    push_cast [hQ]
    ring

/-- The criterion for rounding on steps of a grid: q steps at most half a step from x, and even when exactly half a step off. -/
theorem nearestEven_of_steps {f : Format} (hf : Proper f) {x : ℚ} {j q : Nat} (hq : q ≤ 2 ^ (f.M + 1)) (hx : 0 ≤ x)
    (hj : j = 0 ∨ 2 ^ f.M ≤ q ∧ (2 : ℚ) ^ f.M * (2 ^ j * leastUnit f) ≤ x) (he : j + q / 2 ^ f.M < 2 ^ f.E - 1)
    (hhalf : 2 * |q * ((2 : ℚ) ^ j * leastUnit f) - x| ≤ 2 ^ j * leastUnit f)
    (heven : 2 * |q * ((2 : ℚ) ^ j * leastUnit f) - x| = 2 ^ j * leastUnit f → q % 2 = 0) :
    NearestEven f x (compose f 0 (j + q / 2 ^ f.M) (q % 2 ^ f.M)) := by
  have hm : q % 2 ^ f.M < 2 ^ f.M := Nat.mod_lt _ (by positivity)
  have he' : j + q / 2 ^ f.M < 2 ^ f.E := he.trans_le (Nat.sub_le _ _)
  have hval := (value_of_sign_zero (signOf_compose (by norm_num) he' hm)).trans
    (magnitude_of_steps (s := 0) hf hq (hj.imp_right And.left) he')
  have hfin : isFinite f (compose f 0 (j + q / 2 ^ f.M) (q % 2 ^ f.M)) := by
    rw [isFinite, expOf_compose hf he' hm]; omega
  have hpar : mantOf f (compose f 0 (j + q / 2 ^ f.M) (q % 2 ^ f.M)) % 2 = q % 2 := by
    rw [mantOf_compose hf hm]
    exact Nat.mod_mod_of_dvd _ (dvd_pow_self 2 hf.2.ne')
  rw [← hval] at hhalf heven
  rw [← hpar] at heven
  rcases hj with rfl | ⟨hqM, hxM⟩
  · rw [pow_zero, one_mul] at hhalf heven
    exact nearestEven_of_least hfin hx hhalf heven
  · have hunit : (2 : ℚ) ^ ((1 - (f.B : ℤ) + j) - f.M) = 2 ^ j * leastUnit f := by
      rw [leastUnit, two_pow_mul_zpow]; congr 1; ring
    have hbinade : (2 : ℚ) ^ (1 - (f.B : ℤ) + j) = 2 ^ f.M * (2 ^ j * leastUnit f) := by
      rw [← hunit, two_pow_mul_zpow]; congr 1; ring
    have hpos : (0 : ℚ) < 2 ^ j * leastUnit f := by unfold leastUnit; positivity
    refine nearestEven_of_binade hf (t := 1 - (f.B : ℤ) + j) (by omega) hfin (hbinade ▸ hxM) ?_ (hunit ▸ hhalf)
      (hunit ▸ heven)
    rw [hval, hbinade]
    exact mul_le_mul_of_nonneg_right (by exact_mod_cast hqM) hpos.le

theorem mantOf_infinityOf {f : Format} (hf : Proper f) (s : Nat) : mantOf f (infinityOf f s) = 0 :=
  mantOf_compose (s := s) (e := 2 ^ f.E - 1) (m := 0) hf (by positivity)

/-- A correctly rounded tie has an even mantissa: it is a finite pattern next to the tie, or an infinity. -/
theorem CorrectlyRounded.even_of_tie {f : Format} (hf : Proper f) {x : ℚ} {r lo hi : Nat} (h : CorrectlyRounded f x r)
    (hlo : lo < 2 ^ fmtWidth f) (hhi : hi < 2 ^ fmtWidth f) (hflo : isFinite f lo) (hfhi : isFinite f hi)
    (hlt : value f lo < value f hi)
    (hadj : ∀ c : Nat, c < 2 ^ fmtWidth f → isFinite f c → ¬ (value f lo < value f c ∧ value f c < value f hi))
    (htie : 2 * x = value f lo + value f hi) : mantOf f r % 2 = 0 := by
  obtain ⟨hr, hnear, hinf⟩ := h
  by_cases hb : |x| < overflowBound f
  · obtain ⟨hfin, hn⟩ := hnear hb
    obtain ⟨hrlo, hevenlo⟩ := hn lo hlo hflo
    obtain ⟨-, hevenhi⟩ := hn hi hhi hfhi
    have hdlo : |value f lo - x| = (value f hi - value f lo) / 2 := by
      rw [abs_of_nonpos (by linarith)]; linarith
    have hdhi : |value f hi - x| = (value f hi - value f lo) / 2 := by
      rw [abs_of_nonneg (by linarith)]; linarith
    rw [hdlo] at hrlo hevenlo
    rw [hdhi] at hevenhi
    by_cases hr' : value f r ≤ value f lo
    · -- r lies at or below the tie, so the upper neighbour is equally near
      have hdr : |value f r - x| = x - value f r := by rw [abs_of_nonpos (by linarith)]; linarith
      exact hevenhi (by linarith) (hlt.trans_le' hr').ne'
    · have hr'' : value f hi ≤ value f r := not_lt.mp fun h => hadj r hr hfin ⟨not_le.mp hr', h⟩
      have hdr : |value f r - x| = value f r - x := abs_of_nonneg (by linarith)
      exact hevenlo (by linarith) (hlt.trans_le hr'').ne
  · rw [hinf (not_lt.mp hb), mantOf_infinityOf hf]

end Sys2Proof.Machine
end

section
/-! PROOFS. The table algorithm of truncsfhf2 as rounding: the entries by class of the exponent byte, and the narrowed pattern as a
sign and steps of the binary16 grid. -/

namespace Sys2Proof.Machine

/-! ### Dropping low bits, ties to even -/

/-- N with its low k bits dropped, rounded as the table algorithm rounds (R105): the highest dropped bit and, in a tie, the lowest
kept one decide. -/
def roundShift (k N : Nat) : Nat :=
  N / 2 ^ k + if N / 2 ^ (k - 1) % 2 = 1 ∧ (N / 2 ^ k % 2 = 1 ∨ N % 2 ^ (k - 1) ≠ 0) then 1 else 0

/-- It is at most half a unit `2^k` from N, and even when it is exactly that. -/
theorem roundShift_nearest {k : Nat} (hk : 0 < k) (N : Nat) :
    2 * (roundShift k N * 2 ^ k) ≤ 2 * N + 2 ^ k ∧ 2 * N ≤ 2 * (roundShift k N * 2 ^ k) + 2 ^ k ∧
    (2 * (roundShift k N * 2 ^ k) = 2 * N + 2 ^ k ∨ 2 * N = 2 * (roundShift k N * 2 ^ k) + 2 ^ k →
      roundShift k N % 2 = 0) := by
  obtain ⟨i, rfl⟩ := Nat.exists_eq_succ_of_ne_zero hk.ne'
  have hN := Nat.div_add_mod N (2 ^ i)
  have hw : N % 2 ^ i < 2 ^ i := Nat.mod_lt _ (by positivity)
  rw [roundShift, Nat.succ_sub_one, pow_succ, ← Nat.div_div_eq_div_mul]
  generalize N / 2 ^ i = t at *
  generalize N % 2 ^ i = w at *
  generalize 2 ^ i = H at *
  -- t = 2 a + b, b being the highest dropped bit
  obtain ⟨a, b, hb, rfl⟩ : ∃ a b, b < 2 ∧ t = 2 * a + b := ⟨t / 2, t % 2, Nat.mod_lt _ (by norm_num), by omega⟩
  have hdiv : (2 * a + b) / 2 = a := by omega
  have hmod : (2 * a + b) % 2 = b := by omega
  rw [hdiv, hmod]
  have hup : (a + 1) * (H * 2) = a * (H * 2) + H * 2 := by ring
  have hsum : H * (2 * a + b) = a * (H * 2) + H * b := by ring
  generalize hP : a * (H * 2) = P at *
  obtain rfl | rfl : b = 0 ∨ b = 1 := by omega
  · rw [if_neg (by omega), add_zero, hP]
    omega
  · split_ifs with hc
    · rw [hup]; omega
    · rw [add_zero, hP]; omega

/-- The same in units of any size. -/
theorem roundShift_half_unit {k : Nat} (hk : 0 < k) (N : Nat) {v : ℚ} (hv : 0 < v) :
    2 * |(roundShift k N : ℚ) * (2 ^ k * v) - N * v| ≤ 2 ^ k * v ∧
    (2 * |(roundShift k N : ℚ) * (2 ^ k * v) - N * v| = 2 ^ k * v → roundShift k N % 2 = 0) := by
  obtain ⟨h1, h2, h3⟩ := roundShift_nearest hk N
  have hscale : |(roundShift k N : ℚ) * (2 ^ k * v) - N * v| = |(roundShift k N : ℚ) * 2 ^ k - N| * v := by
    rw [← abs_of_pos hv, ← abs_mul, abs_of_pos hv]; congr 1; ring
  have h1' : 2 * ((roundShift k N : ℚ) * 2 ^ k) ≤ 2 * N + 2 ^ k := by exact_mod_cast h1
  have h2' : 2 * (N : ℚ) ≤ 2 * (roundShift k N * 2 ^ k) + 2 ^ k := by exact_mod_cast h2
  rw [hscale, ← mul_assoc]
  constructor
  · have habs : |(roundShift k N : ℚ) * 2 ^ k - N| ≤ 2 ^ k / 2 := abs_le.mpr ⟨by linarith, by linarith⟩
    exact mul_le_mul_of_nonneg_right (by linarith) hv.le
  · intro h
    have h := mul_right_cancel₀ hv.ne' h
    apply h3
    rcases abs_choice ((roundShift k N : ℚ) * 2 ^ k - N) with ha | ha
    · left
      have : 2 * ((roundShift k N : ℚ) * 2 ^ k) = 2 * N + 2 ^ k := by linarith
      exact_mod_cast this
    · right
      have : 2 * (N : ℚ) = 2 * (roundShift k N * 2 ^ k) + 2 ^ k := by linarith
      exact_mod_cast this

/-- Between powers of two it stays between them. -/
theorem roundShift_bounds {k n N : Nat} (hlo : 2 ^ (n + k) ≤ N) (hhi : N < 2 ^ (n + 1 + k)) :
    2 ^ n ≤ roundShift k N ∧ roundShift k N ≤ 2 ^ (n + 1) := by
  have h1 : 2 ^ n ≤ N / 2 ^ k := by rwa [Nat.le_div_iff_mul_le (by positivity), ← pow_add]
  have h2 : N / 2 ^ k < 2 ^ (n + 1) := by rwa [Nat.div_lt_iff_lt_mul (by positivity), ← pow_add]
  unfold roundShift
  split_ifs <;> omega

/-- The implicit bit above a mantissa of n bits only adds to the quotient. -/
theorem roundShift_add_two_pow {k n : Nat} (hk : 0 < k) (hkn : k ≤ n) (m : Nat) :
    roundShift k (2 ^ n + m) = 2 ^ (n - k) + m / 2 ^ k +
      if m / 2 ^ (k - 1) % 2 = 1 ∧ ((2 ^ (n - k) + m / 2 ^ k) % 2 = 1 ∨ m % 2 ^ (k - 1) ≠ 0) then 1 else 0 := by
  obtain ⟨i, rfl⟩ := Nat.exists_eq_succ_of_ne_zero hk.ne'
  obtain ⟨d, rfl⟩ := Nat.exists_eq_add_of_le hkn
  have hbit : (2 ^ (i + 1 + d) + m) / 2 ^ i % 2 = m / 2 ^ i % 2 := by
    rw [show 2 ^ (i + 1 + d) + m = m + 2 ^ i * (2 * 2 ^ d) by ring, Nat.add_mul_div_left _ _ (by positivity),
      Nat.add_mul_mod_self_left]
  have hrest : (2 ^ (i + 1 + d) + m) % 2 ^ i = m % 2 ^ i := by
    rw [show 2 ^ (i + 1 + d) + m = m + 2 ^ i * (2 * 2 ^ d) by ring, Nat.add_mul_mod_self_left]
  have hquot : (2 ^ (i + 1 + d) + m) / 2 ^ (i + 1) = 2 ^ d + m / 2 ^ (i + 1) := by
    rw [pow_add, Nat.mul_add_div (by positivity)]
  simp only [roundShift, Nat.succ_eq_add_one, Nat.add_sub_cancel, Nat.add_sub_cancel_left, hbit, hrest, hquot]

/-! ### The entries of a key -/

/-- The key of a pattern is its sign and its exponent byte. -/
theorem tableKey_fields (f : Single) : (tableKey f).toNat = signOf .single f.toNat * 256 + expOf .single f.toNat := by
  have h := f.isLt
  rw [tableKey_toNat, signOf_eq, expOf_eq single_proper]
  simp only [Format.single]
  omega

/-- The BASE entry of a key: the entry of its exponent byte, with the sign above it (R28). -/
theorem initBase_toNat {s e : Nat} (hs : s < 2) (he : e < 256) (hp : positiveBase e < 2 ^ 15) :
    (initBase (s * 256 + e)).toNat = s * 2 ^ 15 + positiveBase e := by
  have hsign : (if 256 ≤ s * 256 + e then 0x8000 else 0) = 2 ^ 15 * s := by split_ifs <;> omega
  rw [initBase, show (s * 256 + e) % 256 = e by omega, hsign, Nat.or_comm, ← Nat.two_pow_add_eq_or_of_lt hp,
    BitVec.toNat_ofNat, Nat.mod_eq_of_lt (by omega), mul_comm]

theorem initShift_toNat {s e : Nat} (he : e < 256) (hp : shiftAmount e < 2 ^ 8) :
    (initShift (s * 256 + e)).toNat = shiftAmount e := by
  rw [initShift, show (s * 256 + e) % 256 = e by omega, BitVec.toNat_ofNat, Nat.mod_eq_of_lt hp]

/-- Too small for any binary16 value but zero. -/
theorem entries_of_tiny {e : Nat} (he : e < 103) : positiveBase e = 0 ∧ shiftAmount e = 24 := by
  have h : trueExponent e < -24 := by unfold trueExponent; omega
  simp only [positiveBase, shiftAmount, h, if_true, and_self]

/-- The keys of the binary16 subnormals and normals: the shift leaves a mantissa of 10 bits, or as many as a subnormal has, and the
base is the exponent field below it together with the implicit bit of the input. -/
theorem entries_of_middle {e : Nat} (h1 : 103 ≤ e) (h2 : e ≤ 142) :
    shiftAmount e = max 13 (126 - e) ∧ positiveBase e = (e - 113) * 2 ^ 10 + 2 ^ (23 - max 13 (126 - e)) := by
  have hlow : ¬ trueExponent e < -24 := by unfold trueExponent; omega
  simp only [positiveBase, shiftAmount, hlow, if_false]
  by_cases h : e < 113
  · have hsub : trueExponent e < -14 := by unfold trueExponent; omega
    have hmax : max 13 (126 - e) = 126 - e := by omega
    simp only [hsub, if_true, hmax]
    unfold trueExponent
    refine ⟨by omega, ?_⟩
    rw [show (-((e : ℤ) - 127) - 14).toNat = 113 - e by omega, show e - 113 = 0 by omega,
      show 23 - (126 - e) = 10 - (113 - e) by omega, Nat.shiftRight_eq_div_pow, show 0x400 = 2 ^ 10 by rfl, Nat.pow_div (by omega) (by norm_num), zero_mul, zero_add]
  · have hsub : ¬ trueExponent e < -14 := by unfold trueExponent; omega
    have htop : trueExponent e ≤ 15 := by unfold trueExponent; omega
    have hmax : max 13 (126 - e) = 13 := by omega
    simp only [hsub, htop, if_true, if_false, hmax, Nat.shiftLeft_eq, Nat.reduceSub, true_and]
    unfold trueExponent
    omega

/-- Too large for any finite binary16 value. -/
theorem entries_of_large {e : Nat} (h1 : 143 ≤ e) (h2 : e < 255) : positiveBase e = 0x7C00 ∧ shiftAmount e = 24 := by
  have ha : ¬ trueExponent e < -24 := by unfold trueExponent; omega
  have hb : ¬ trueExponent e < -14 := by unfold trueExponent; omega
  have hc : ¬ trueExponent e ≤ 15 := by unfold trueExponent; omega
  have hd : trueExponent e < 128 := by unfold trueExponent; omega
  simp only [positiveBase, shiftAmount, ha, hb, hc, hd, if_true, if_false, and_self]

/-! ### The narrowed pattern, by the class of the key -/

theorem signed_sum_mod {s x : Nat} (hs : s < 2) (hx : x < 2 ^ 15) : (s * 2 ^ 15 + x) % 2 ^ 16 = s * 2 ^ 15 + x :=
  Nat.mod_eq_of_lt (by omega)

theorem signed_sum_parity (s x : Nat) : (s * 2 ^ 15 + x) % 2 = x % 2 := by omega

/-- The table algorithm where the sum with the rounding increment stays below the sign of the entry. -/
theorem narrowWith_of_sum_lt {b : BaseWord} {sh : ShiftWord} {f : Single} {s c k m : Nat} (hs : s < 2)
    (hb : b.toNat = s * 2 ^ 15 + c) (hk : sh.toNat = k) (hm : f.toNat % 2 ^ 23 = m) (hlt : c + m / 2 ^ k + 1 < 2 ^ 15) :
    (narrowWith b sh f).toNat = s * 2 ^ 15 + (c + m / 2 ^ k +
      if m / 2 ^ (k - 1) % 2 = 1 ∧ ((c + m / 2 ^ k) % 2 = 1 ∨ m % 2 ^ (k - 1) ≠ 0) then 1 else 0) := by
  rw [narrowWith_toNat, hb, hk, hm]
  dsimp only
  rw [add_assoc, signed_sum_mod hs (Nat.lt_of_succ_lt hlt), signed_sum_parity]
  split_ifs
  · rw [add_assoc, signed_sum_mod hs hlt]
  · rw [add_zero]

/-- `narrowSingle` by the entries of its exponent byte. -/
theorem narrowSingle_toNat {f : Single} {e m k c : Nat} (he : expOf .single f.toNat = e) (hm : mantOf .single f.toNat = m)
    (hk : shiftAmount e = k) (hk8 : k < 2 ^ 8) (hc : positiveBase e = c) (hlt : c + m / 2 ^ k + 1 < 2 ^ 15) :
    (narrowSingle f).toNat = signOf .single f.toNat * 2 ^ 15 + (c + m / 2 ^ k +
      if m / 2 ^ (k - 1) % 2 = 1 ∧ ((c + m / 2 ^ k) % 2 = 1 ∨ m % 2 ^ (k - 1) ≠ 0) then 1 else 0) := by
  have he8 : e < 256 := he ▸ expOf_lt single_proper f.toNat
  have hs := signOf_lt .single f.toNat
  have hc15 : c < 2 ^ 15 := (Nat.le_add_right c _).trans_lt (Nat.lt_of_succ_lt hlt)
  rw [mantOf_eq single_proper] at hm
  refine narrowWith_of_sum_lt hs ?_ ?_ hm hlt
  · rw [tableKey_fields, he, initBase_toNat hs he8 (hc ▸ hc15), hc]
  · rw [tableKey_fields, he, initShift_toNat he8 (hk ▸ hk8), hk]

/-- A mantissa of 23 bits vanishes under a shift of 24, and leaves no increment. -/
theorem narrowSingle_of_vanishing (f : Single) {c : Nat} (hk : shiftAmount (expOf .single f.toNat) = 24)
    (hc : positiveBase (expOf .single f.toNat) = c) (hlt : c + 1 < 2 ^ 15) :
    (narrowSingle f).toNat = signOf .single f.toNat * 2 ^ 15 + c := by
  have hm : mantOf .single f.toNat < 2 ^ 23 := mantOf_lt single_proper _
  have h24 : mantOf .single f.toNat / 2 ^ 24 = 0 := by omega
  have h23 : mantOf .single f.toNat / 2 ^ 23 = 0 := by omega
  rw [narrowSingle_toNat rfl rfl hk (by norm_num) hc (by omega), h24, h23]
  simp

theorem narrowSingle_of_tiny {f : Single} (he : expOf .single f.toNat < 103) :
    (narrowSingle f).toNat = compose .half (signOf .single f.toNat) 0 0 := by
  obtain ⟨hc, hk⟩ := entries_of_tiny he
  simpa [compose, Format.half] using narrowSingle_of_vanishing f hk hc (by norm_num)

theorem narrowSingle_of_large {f : Single} (h1 : 143 ≤ expOf .single f.toNat) (h2 : expOf .single f.toNat < 255) :
    (narrowSingle f).toNat = compose .half (signOf .single f.toNat) 31 0 := by
  obtain ⟨hc, hk⟩ := entries_of_large h1 h2
  simpa [compose, Format.half] using narrowSingle_of_vanishing f hk hc (by norm_num)

/-- The mantissa of a middle key, its implicit bit included, rounded to the width that is left (R105). -/
def middleSteps (e m : Nat) : Nat := roundShift (max 13 (126 - e)) (2 ^ 23 + m)

theorem middleSteps_le {e m : Nat} (hm : m < 2 ^ 23) (h1 : 103 ≤ e) :
    middleSteps e m ≤ 2 ^ 11 ∧ (113 ≤ e → 2 ^ 10 ≤ middleSteps e m) := by
  obtain ⟨n, hn⟩ : ∃ n, n + max 13 (126 - e) = 23 := ⟨23 - max 13 (126 - e), by omega⟩
  obtain ⟨hlo, hhi⟩ := roundShift_bounds (k := max 13 (126 - e)) (n := n) (N := 2 ^ 23 + m) (by rw [hn]; omega)
    (by rw [show n + 1 + max 13 (126 - e) = 24 by omega]; omega)
  refine ⟨hhi.trans (Nat.pow_le_pow_right (by norm_num) (by omega)), fun h => ?_⟩
  rwa [show n = 10 by omega] at hlo

theorem narrowSingle_of_middle {f : Single} (h1 : 103 ≤ expOf .single f.toNat) (h2 : expOf .single f.toNat ≤ 142) :
    (narrowSingle f).toNat = compose .half (signOf .single f.toNat)
      (expOf .single f.toNat - 113 + middleSteps (expOf .single f.toNat) (mantOf .single f.toNat) / 2 ^ 10)
      (middleSteps (expOf .single f.toNat) (mantOf .single f.toNat) % 2 ^ 10) := by
  have hm : mantOf .single f.toNat < 2 ^ 23 := mantOf_lt single_proper _
  obtain ⟨hk, hc⟩ := entries_of_middle h1 h2
  generalize hme : expOf .single f.toNat = e at *
  generalize hmm : mantOf .single f.toNat = m at *
  have hquot : m / 2 ^ max 13 (126 - e) < 2 ^ 10 := by
    rw [Nat.div_lt_iff_lt_mul (by positivity), ← pow_add]
    exact hm.trans_le (Nat.pow_le_pow_right (by norm_num) (by omega))
  have hpow : 2 ^ (23 - max 13 (126 - e)) ≤ 2 ^ 10 := Nat.pow_le_pow_right (by norm_num) (by omega)
  have hsteps := roundShift_add_two_pow (k := max 13 (126 - e)) (n := 23) (by omega) (by omega) m
  rw [narrowSingle_toNat hme hmm hk (by omega) hc (by omega), compose, middleSteps, hsteps]
  simp only [Format.half]
  generalize m / 2 ^ (max 13 (126 - e) - 1) % 2 = g
  generalize m % 2 ^ (max 13 (126 - e) - 1) = w
  generalize m / 2 ^ max 13 (126 - e) = t at *
  generalize 2 ^ (23 - max 13 (126 - e)) = p at *
  have hpar : ((e - 113) * 2 ^ 10 + p + t) % 2 = (p + t) % 2 := by omega
  rw [hpar]
  split_ifs <;> omega

end Sys2Proof.Machine
end

section
/-! PROOFS. Narrowing is correctly rounded outside exponent byte 0x66 (O36). -/

namespace Sys2Proof.Machine

/-! ### Bounds on magnitudes -/

theorem half_overflowBound : overflowBound .half = 65520 := by norm_num [overflowBound, Format.half]

theorem half_leastUnit : leastUnit .half = 2 ^ (-24 : ℤ) := by norm_num [leastUnit, Format.half]

/-- A magnitude whose exponent field is at most t is below 2^(t-B+1). -/
theorem magnitude_lt_of_expOf_le {f : Format} (hf : Proper f) {v t : Nat} (h : expOf f v ≤ t) :
    magnitude f v < (2 : ℚ) ^ ((t : ℤ) - f.B + 1) := by
  by_cases h0 : expOf f v = 0
  · have hm : (mantOf f v : ℚ) < 2 ^ f.M := by exact_mod_cast mantOf_lt hf v
    rw [magnitude, if_pos h0]
    calc (2 : ℚ) ^ (1 - (f.B : ℤ)) * ((mantOf f v : ℚ) / 2 ^ f.M)
        < 2 ^ (1 - (f.B : ℤ)) * 1 := by gcongr; exact (div_lt_one (by positivity)).mpr hm
      _ ≤ 2 ^ ((t : ℤ) - f.B + 1) := by rw [mul_one]; exact zpow_le_zpow_right₀ (by norm_num) (by omega)
  · exact (magnitude_lt hf h0).trans_le (zpow_le_zpow_right₀ (by norm_num) (by omega))

/-- A magnitude of a normal pattern is at least the power of two of its exponent field. -/
theorem two_pow_le_magnitude {f : Format} {v : Nat} (h : expOf f v ≠ 0) :
    (2 : ℚ) ^ ((expOf f v : ℤ) - f.B) ≤ magnitude f v := by
  rw [magnitude, if_neg h]
  exact le_mul_of_one_le_right (by positivity) (le_add_of_nonneg_right (by positivity))

theorem single_magnitude {v : Nat} (h : expOf .single v ≠ 0) :
    magnitude .single v = (2 ^ 23 + mantOf .single v : ℕ) * (2 : ℚ) ^ ((expOf .single v : ℤ) - 150) := by
  rw [magnitude_of_normal h]
  simp only [Format.single]
  congr 2
  push_cast
  ring

/-! ### Narrowing is correctly rounded, by the class of the key -/

/-- Below exponent byte 0x66, and at the tie 2^-25, the signed zero is the nearest binary16 value. -/
theorem narrowSingle_correctlyRounded_of_tiny {f : Single} (he : expOf .single f.toNat < 103)
    (hx : 2 * magnitude .single f.toNat ≤ leastUnit .half) :
    CorrectlyRounded .half (value .single f.toNat) (narrowSingle f).toNat := by
  have hmag := magnitude_nonneg .single f.toNat
  have hbound : magnitude .single f.toNat < overflowBound .half := by
    rw [half_leastUnit] at hx; rw [half_overflowBound]; norm_num at hx; linarith
  rw [narrowSingle_of_tiny he]
  refine correctlyRounded_of_magnitude half_proper (signOf_lt _ _) (by decide) (by decide) hmag (fun _ => ?_)
    (fun h => absurd hbound (not_lt.mpr h))
  exact nearestEven_of_steps half_proper (j := 0) (q := 0) (by decide) hmag (.inl rfl) (by decide)
    (by simpa [abs_of_nonneg hmag] using hx) (fun _ => rfl)

theorem tiny_le_half_leastUnit {v : Nat} (he : expOf .single v < 103)
    (h : ¬ (expOf .single v = 0x66 ∧ mantOf .single v ≠ 0)) :
    2 * magnitude .single v ≤ leastUnit .half := by
  rw [half_leastUnit]
  by_cases h66 : expOf .single v = 0x66
  · have hm : mantOf .single v = 0 := by_contra fun hm => h ⟨h66, hm⟩
    rw [single_magnitude (by omega), h66, hm]
    norm_num
  · have hlt : magnitude .single v < 2 ^ (-25 : ℤ) :=
      (magnitude_lt_of_expOf_le (t := 101) single_proper (by omega)).trans_eq (by norm_num [Format.single])
    norm_num at hlt ⊢
    linarith

/-- Among the middle keys exactly the top of the last binade reaches the overflow bound. -/
theorem middle_overflow_iff {v : Nat} (h1 : 103 ≤ expOf .single v) (h2 : expOf .single v ≤ 142) :
    overflowBound .half ≤ magnitude .single v ↔ expOf .single v = 142 ∧ 0x7FF000 ≤ mantOf .single v := by
  rw [half_overflowBound]
  by_cases h142 : expOf .single v = 142
  · rw [single_magnitude (by omega), h142]
    have hscale : (65520 : ℚ) = (0xFFF000 : ℕ) * (2 : ℚ) ^ (((142 : ℕ) : ℤ) - 150) := by norm_num
    rw [hscale, mul_le_mul_iff_left₀ (by positivity), Nat.cast_le]
    omega
  · have hlt : magnitude .single v < 32768 :=
      (magnitude_lt_of_expOf_le (t := 141) single_proper (by omega)).trans_eq (by norm_num [Format.single])
    exact iff_of_false (by linarith) (fun h => h142 h.1)

/-- There, and only there, the rounding carries out of the last binade, into the exponent field of the infinity. -/
theorem middleSteps_overflow_iff {e m : Nat} (hm : m < 2 ^ 23) (h1 : 103 ≤ e) (h2 : e ≤ 142) :
    30 < e - 113 + middleSteps e m / 2 ^ 10 ↔ e = 142 ∧ 0x7FF000 ≤ m := by
  have hle := (middleSteps_le hm h1).1
  by_cases h142 : e = 142
  · subst h142
    obtain ⟨hup, hdown, heven⟩ := roundShift_nearest (k := 13) (by norm_num) (2 ^ 23 + m)
    rw [show roundShift 13 (2 ^ 23 + m) = middleSteps 142 m from rfl] at hup hdown heven
    omega
  · omega

theorem narrowSingle_correctlyRounded_of_middle {f : Single} (h1 : 103 ≤ expOf .single f.toNat)
    (h2 : expOf .single f.toNat ≤ 142) : CorrectlyRounded .half (value .single f.toNat) (narrowSingle f).toNat := by
  have hoverflow := middle_overflow_iff h1 h2
  have hmag := magnitude_nonneg .single f.toNat
  have hx := single_magnitude (v := f.toNat) (by omega)
  have hlow := two_pow_le_magnitude (f := .single) (v := f.toNat) (by omega)
  have hm : mantOf .single f.toNat < 2 ^ 23 := mantOf_lt single_proper _
  rw [narrowSingle_of_middle h1 h2, value]
  generalize magnitude .single f.toNat = x at *
  generalize expOf .single f.toNat = e at *
  generalize mantOf .single f.toNat = m at *
  have hcarry := middleSteps_overflow_iff hm h1 h2
  obtain ⟨hle, hge⟩ := middleSteps_le hm h1
  have hexp : e - 113 + middleSteps e m / 2 ^ 10 < 2 ^ 5 := by omega
  refine correctlyRounded_of_magnitude half_proper (signOf_lt _ _) hexp (Nat.mod_lt _ (by norm_num)) hmag (fun hb => ?_)
    (fun hb => ?_)
  · -- the step of the result, in units of the last place of the input
    have hunit : (2 : ℚ) ^ (e - 113) * leastUnit .half = 2 ^ max 13 (126 - e) * 2 ^ ((e : ℤ) - 150) := by
      rw [half_leastUnit, two_pow_mul_zpow, two_pow_mul_zpow]
      congr 1; omega
    obtain ⟨hhalf, heven⟩ := roundShift_half_unit (k := max 13 (126 - e)) (by omega) (2 ^ 23 + m)
      (v := (2 : ℚ) ^ ((e : ℤ) - 150)) (by positivity)
    rw [← hunit, ← hx] at hhalf heven
    refine nearestEven_of_steps half_proper hle hmag ?_ ?_ hhalf heven
    · by_cases h113 : 113 ≤ e
      · refine .inr ⟨hge h113, le_trans (le_of_eq ?_) hlow⟩
        rw [half_leastUnit, two_pow_mul_zpow, two_pow_mul_zpow]
        congr 1; simp only [Format.half, Format.single]; omega
      · exact .inl (by omega)
    · have := mt hoverflow.mpr (not_le.mpr hb)
      change _ < 31
      simp only [Format.half]
      omega
  · have htop := hoverflow.mp hb
    have := hcarry.mpr htop
    simp only [Format.half]
    omega

theorem narrowSingle_correctlyRounded_of_large {f : Single} (h1 : 143 ≤ expOf .single f.toNat)
    (h2 : expOf .single f.toNat < 255) : CorrectlyRounded .half (value .single f.toNat) (narrowSingle f).toNat := by
  have hlow := two_pow_le_magnitude (f := .single) (v := f.toNat) (by omega)
  have hbound : overflowBound .half ≤ magnitude .single f.toNat := by
    have hpow : (2 : ℚ) ^ (16 : ℤ) ≤ 2 ^ ((expOf .single f.toNat : ℤ) - Format.single.B) :=
      zpow_le_zpow_right₀ (by norm_num) (by rw [show Format.single.B = 127 from rfl]; omega)
    rw [half_overflowBound]
    norm_num at hpow
    linarith
  rw [narrowSingle_of_large h1 h2]
  exact correctlyRounded_of_magnitude half_proper (signOf_lt _ _) (by decide) (by decide) (magnitude_nonneg _ _)
    (fun h => absurd hbound (not_le.mpr h)) (fun _ => ⟨rfl, rfl⟩)

/-- Settles O36, by the classes of the key: tiny, middle and large. -/
theorem narrowingIsCorrectlyRoundedElsewhere : Obligations.NarrowingIsCorrectlyRoundedElsewhere := by
  intro f hfin hnot
  have hlt : expOf .single f.toNat < 256 := expOf_lt single_proper _
  have hne : expOf .single f.toNat ≠ 255 := hfin
  by_cases h1 : expOf .single f.toNat < 103
  · exact narrowSingle_correctlyRounded_of_tiny h1 (tiny_le_half_leastUnit h1 hnot)
  · by_cases h2 : expOf .single f.toNat ≤ 142
    · exact narrowSingle_correctlyRounded_of_middle (by omega) h2
    · exact narrowSingle_correctlyRounded_of_large (by omega) (by omega)

end Sys2Proof.Machine
end

section
/-! PROOFS. Narrowing at exponent byte 0x66, and its ties (O35, O41). -/

namespace Sys2Proof.Machine

/-! ### Exponent byte 0x66 -/

theorem abs_signed_sub (s : Nat) (a b : ℚ) : |(-1) ^ s * a - (-1) ^ s * b| = |a - b| := by
  rw [← mul_sub, abs_mul, abs_neg_one_pow, one_mul]

theorem half_compose_step (s q : Nat) : compose .half s 0 q = s * 2 ^ 15 + q := by simp [compose, Format.half]

/-- The value of a signed zero and of a smallest subnormal, by their steps. -/
theorem half_value_of_step {s q : Nat} (hs : s < 2) (hq : q < 2 ^ 10) :
    value .half (compose .half s 0 q) = (-1) ^ s * (q * leastUnit .half) := by
  have he : expOf .half (compose .half s 0 q) = 0 := expOf_compose half_proper (by decide) hq
  rw [value, magnitude_of_subnormal he, signOf_compose hs (by decide) hq, mantOf_compose half_proper hq]

/-- Above the tie 2^-25 and below 2^-24. -/
theorem magnitude_of_byte_0x66 {v : Nat} (he : expOf .single v = 0x66) (hm : mantOf .single v ≠ 0) :
    leastUnit .half < 2 * magnitude .single v ∧ magnitude .single v < leastUnit .half := by
  have hlt : mantOf .single v < 2 ^ 23 := mantOf_lt single_proper v
  have hmag : magnitude .single v = (2 ^ 23 + mantOf .single v : ℕ) * (2 : ℚ) ^ (-48 : ℤ) := by
    rw [single_magnitude (by omega), he]; norm_num
  have hlo : ((2 ^ 23 : ℕ) : ℚ) < (2 ^ 23 + mantOf .single v : ℕ) := Nat.cast_lt.mpr (by omega)
  have hhi : ((2 ^ 23 + mantOf .single v : ℕ) : ℚ) < (2 ^ 24 : ℕ) := Nat.cast_lt.mpr (by omega)
  rw [hmag, half_leastUnit]
  generalize ((2 ^ 23 + mantOf .single v : ℕ) : ℚ) = x at *
  norm_num at hlo hhi ⊢
  constructor <;> linarith

/-- There the smallest subnormal is the nearest binary16 value. -/
theorem smallest_subnormal_correctlyRounded {v : Nat} (he : expOf .single v = 0x66) (hm : mantOf .single v ≠ 0) :
    CorrectlyRounded .half (value .single v) (compose .half (signOf .single v) 0 1) := by
  obtain ⟨hlo, hhi⟩ := magnitude_of_byte_0x66 he hm
  have hmag := magnitude_nonneg .single v
  have hbound : leastUnit .half < overflowBound .half := by rw [half_leastUnit, half_overflowBound]; norm_num
  refine correctlyRounded_of_magnitude half_proper (signOf_lt _ _) (by decide) (by decide) hmag (fun _ => ?_)
    (fun h => absurd (hhi.trans hbound) (not_lt.mpr h))
  have hdist : |((1 : ℕ) : ℚ) * (2 ^ 0 * leastUnit .half) - magnitude .single v| = leastUnit .half - magnitude .single v := by
    rw [Nat.cast_one, one_mul, pow_zero, one_mul, abs_of_pos (by linarith)]
  refine nearestEven_of_steps half_proper (j := 0) (q := 1) (by decide) hmag (.inl rfl) (by decide) ?_ ?_
  · rw [hdist, pow_zero, one_mul]; linarith
  · rw [hdist, pow_zero, one_mul]; intro h; linarith

/-- The signed zero is farther away than the smallest subnormal. -/
theorem zero_not_correctlyRounded {v : Nat} (he : expOf .single v = 0x66) (hm : mantOf .single v ≠ 0) :
    ¬ CorrectlyRounded .half (value .single v) (compose .half (signOf .single v) 0 0) := by
  rintro ⟨-, hnear, -⟩
  obtain ⟨hlo, hhi⟩ := magnitude_of_byte_0x66 he hm
  have hmag := magnitude_nonneg .single v
  have hs := signOf_lt .single v
  have hbound : |value .single v| < overflowBound .half := by
    rw [value, abs_mul, abs_neg_one_pow, one_mul, abs_of_nonneg hmag]
    refine hhi.trans ?_
    rw [half_leastUnit, half_overflowBound]; norm_num
  have hfin : isFinite .half (compose .half (signOf .single v) 0 1) := by
    rw [isFinite, expOf_compose half_proper (by decide) (by decide)]; decide
  have hle := ((hnear hbound).2 _ (compose_lt hs (by decide) (by decide)) hfin).1
  rw [half_value_of_step hs (by decide), half_value_of_step hs (by decide), value, abs_signed_sub, abs_signed_sub,
    abs_of_nonpos (by simpa using hmag), abs_of_nonneg (by rw [Nat.cast_one]; linarith)] at hle
  push_cast at hle
  linarith

/-- Settles O35: the three claims at exponent byte 0x66. -/
theorem narrowingDepartsBelowSmallestSubnormal : Obligations.NarrowingDepartsBelowSmallestSubnormal := by
  intro f he
  have hzero := narrowSingle_of_tiny (f := f) (by omega)
  refine ⟨by rw [hzero, half_compose_step, add_zero], fun hm => ⟨?_, ?_⟩, fun hm => ?_⟩
  · rw [← half_compose_step]; exact smallest_subnormal_correctlyRounded he hm
  · rw [hzero]; exact zero_not_correctlyRounded he hm
  · exact narrowSingle_correctlyRounded_of_tiny (by omega) (tiny_le_half_leastUnit (by omega) fun h => h.2 hm)

/-! ### Ties -/

theorem half_low_bit_of_even_mantissa {h : Half} (hm : mantOf .half h.toNat % 2 = 0) : h.getLsbD 0 = false := by
  rw [mantOf_eq half_proper] at hm
  simp only [Format.half] at hm
  rw [BitVec.getLsbD, Nat.testBit_zero, decide_eq_false_iff_not]
  omega

/-- Whatever forces an even mantissa on a correctly rounded result forces it on the narrowed one: the only results that are not
correctly rounded are zeros. -/
theorem narrowSingle_low_bit {f : Single} (hfin : isFinite .single f.toNat)
    (heven : CorrectlyRounded .half (value .single f.toNat) (narrowSingle f).toNat →
      mantOf .half (narrowSingle f).toNat % 2 = 0) :
    (narrowSingle f).getLsbD 0 = false := by
  apply half_low_bit_of_even_mantissa
  by_cases h : expOf .single f.toNat = 0x66 ∧ mantOf .single f.toNat ≠ 0
  · rw [narrowSingle_of_tiny (by omega), mantOf_compose half_proper (by decide)]
  · exact heven (narrowingIsCorrectlyRoundedElsewhere f hfin h)

/-- Settles O41: a tie between two patterns is rounded to the even one, and at 65520 the result is an infinity. -/
theorem narrowingTiesGoToEven : Obligations.NarrowingTiesGoToEven := by
  refine ⟨fun f lo hi hfin hlo hhi hflo hfhi hlt hadj htie => ?_, fun f hfin hx => ?_, by decide, by decide⟩
  · exact narrowSingle_low_bit hfin fun h => h.even_of_tie half_proper hlo hhi hflo hfhi hlt hadj htie
  · refine narrowSingle_low_bit hfin fun h => ?_
    rw [h.2.2 (by rw [hx, half_overflowBound]), mantOf_infinityOf half_proper]

end Sys2Proof.Machine
end

section
/-! PROOFS. The invariant: it holds after reset, every step keeps it, and under it a run stops only at the requester's read of a
missing result (O48, O49, O50). -/

namespace Sys2Proof.Machine

/-! ### The operations of a step keep the invariant -/

theorem MachineInv.beginStep {s : State} (h : MachineInv s) : MachineInv (beginStep s) :=
  ⟨h.built, h.unset, h.idle, h.room, h.sound⟩

/-- Reset discards what is in flight and keeps the observation. -/
theorem MachineInv.resetUnit {s : State} (h : MachineInv s) : MachineInv (resetUnit s) where
  built := nofun
  unset _ := tablesUnset_resetUnit s
  idle _ := rfl
  room := Nat.zero_le _
  sound := h.sound

theorem MachineInv.buildTables {s : State} (h : MachineInv s) : MachineInv (buildTables s) where
  built _ := tablesBuilt_buildTables s
  unset := nofun
  idle := nofun
  room := h.room
  sound := h.sound

/-- `req_ready` gives the room, and that TBL_READY is 1. -/
theorem MachineInv.acceptRequest {s : State} (h : MachineInv s) (q : Request) (hr : reqReady s = true) :
    MachineInv (acceptRequest q s) := by
  obtain ⟨hready, hroom⟩ := (Bool.and_eq_true _ _).mp hr
  refine ⟨h.built, h.unset, fun hn => absurd (hready.symm.trans hn) Bool.noConfusion, ?_, h.sound⟩
  rw [acceptRequest_inflight, List.length_append]
  exact of_decide_eq_true hroom

theorem MachineInv.takeHead {s : State} (h : MachineInv s) : MachineInv (takeHead s) where
  built := h.built
  unset := h.unset
  idle hn := by rw [takeHead_inflight, h.idle hn, List.tail_nil]
  room := by rw [takeHead_inflight, List.length_tail]; exact (Nat.sub_le _ _).trans h.room
  sound := h.sound

theorem MachineInv.deliver {s : State} (h : MachineInv s) (q : Request) : MachineInv (deliver q (specResponse q) s) where
  built := h.built
  unset := h.unset
  idle := h.idle
  room := h.room
  sound p hp := by
    rcases List.mem_append.mp hp with hold | hnew
    · exact h.sound p hold
    · rw [List.mem_singleton.mp hnew]

/-- With a request in flight TBL_READY is 1, so the tables are built. -/
theorem MachineInv.built_of_inflight {s : State} (h : MachineInv s) {q : Request} {qs : List Request}
    (hi : s.inflight = q :: qs) : TablesBuilt s := by
  cases hready : s.tblReady with
  | true => exact h.built hready
  | false => exact absurd ((h.idle hready).symm.trans hi) (List.cons_ne_nil q qs).symm

/-! ### Steps -/

/-- Settles O48: nothing is in flight, nothing has been delivered, and no entry holds a value. -/
theorem resetStateMeetsTheInvariant : Obligations.ResetStateMeetsTheInvariant where
  built := nofun
  unset _ := ⟨rfl, rfl⟩
  idle _ := rfl
  room := Nat.zero_le _
  sound := nofun

/-- Settles O49, by the cases of a step. Only an answer turns on more than its own operation: its request was in flight, so the
tables are built and the response is the spec's. -/
theorem everyStepKeepsTheInvariant : Obligations.EveryStepKeepsTheInvariant := by
  intro s t h hstep
  obtain ⟨-, rfl⟩ | ⟨-, -, -, rfl⟩ | ⟨q, -, -, -, hready, rfl⟩ | ⟨q, qs, r, -, -, hi, hrun, -⟩ | ⟨-, -, rfl⟩ := step_next hstep
  · exact h.beginStep.resetUnit
  · exact h.beginStep.buildTables
  · exact h.beginStep.acceptRequest q hready
  · rw [runRequest_of_built (s := Machine.takeHead (Machine.beginStep s)) (h.built_of_inflight hi)] at hrun
    cases hrun
    exact h.beginStep.takeHead.deliver q
  · exact h.beginStep

/-- Under the invariant a step answers a next state, or the requester reads a result that its response does not have. -/
theorem MachineInv.step_cases {s : State} (h : MachineInv s) :
    (∃ t, step s = .next t) ∨ ∃ k, offer s = .noValue k ∧ step s = .fault (.resultHasNoValue k) := by
  unfold step
  rcases nextSlot s with ⟨_ | _, tn⟩
  · change (∃ t, takeTurn tn (Machine.beginStep s) = .next t) ∨ ∃ k, _ ∧ takeTurn tn (Machine.beginStep s) = _
    cases tn with
    | init =>
      cases hready : s.tblReady with
      | false => exact .inl ⟨_, initTurn_of_not_ready hready⟩
      | true => exact .inl ⟨_, initTurn_of_ready hready⟩
    | accept =>
      cases ho : offer s with
      | nothing => exact .inl ⟨_, acceptTurn_of_nothing ho⟩
      | noValue k => exact .inr ⟨k, rfl, acceptTurn_of_noValue ho⟩
      | request q =>
        cases hready : reqReady s with
        | false => exact .inl ⟨_, acceptTurn_of_not_ready ho hready⟩
        | true => exact .inl ⟨_, acceptTurn_of_ready ho hready⟩
    | respond =>
      cases hi : s.inflight with
      | nil => exact .inl ⟨_, respondTurn_of_nil hi⟩
      | cons q qs =>
        exact .inl ⟨_, respondTurn_of_built (s := Machine.beginStep s) (h.built_of_inflight hi) hi⟩
  · exact .inl ⟨_, rfl⟩

/-! ### Programs of literals -/

/-- The requester's lines change only by acceptance, which takes the first one off. -/
theorem step_program {s t : State} (h : step s = .next t) : t.program = s.program ∨ t.program = s.program.tail := by
  obtain ⟨-, rfl⟩ | ⟨-, -, -, rfl⟩ | ⟨q, -, -, -, -, rfl⟩ | ⟨q, qs, r, -, -, -, -, rfl⟩ | ⟨-, -, rfl⟩ := step_next h
  · exact .inl rfl
  · exact .inl rfl
  · exact .inr rfl
  · exact .inl rfl
  · exact .inl rfl

theorem literalProgram_tail {p : List HostLine} (h : literalProgram p = true) : literalProgram p.tail = true := by
  cases p with
  | nil => exact h
  | cons l ls => exact ((Bool.and_eq_true _ _).mp h).2

theorem step_keeps_literalProgram {s t : State} (h : literalProgram s.program = true) (hstep : step s = .next t) :
    literalProgram t.program = true := by
  rcases step_program hstep with hp | hp
  · rw [hp]; exact h
  · rw [hp]; exact literalProgram_tail h

/-- A literal operand needs no result. -/
theorem offer_ne_noValue_of_literal {s : State} (h : literalProgram s.program = true) (k : Nat) : offer s ≠ .noValue k := by
  cases hp : s.program with
  | nil => simp [offer, hp]
  | cons l ls =>
    cases hl : l.operand with
    | lit a => rw [offer_of_literal hp hl]; exact Offer.noConfusion
    | result j => simp [literalProgram, hp, hl] at h

/-! ### Runs -/

/-- A property that every step keeps holds along every run: of the state the run ends in, or of the state whose step stops it. -/
theorem run_of_kept {P : State → Prop} (hkeep : ∀ s t, P s → step s = .next t → P t) (n : Nat) : ∀ {s : State}, P s →
    (∃ t, P t ∧ runSteps n s = .next t) ∨ ∃ t, P t ∧ (∀ u, step t ≠ .next u) ∧ runSteps n s = step t := by
  induction n with
  | zero => exact fun {s} hs => .inl ⟨s, hs, run_zero s⟩
  | succ n ih =>
    intro s hs
    cases hstep : step s with
    | next t => rw [run_succ n hstep]; exact ih (hkeep s t hs hstep)
    | fault r => exact .inr ⟨s, hs, by simp [hstep], by rw [run_succ_fault n hstep, hstep]⟩
    | refused r => exact .inr ⟨s, hs, by simp [hstep], by rw [run_succ_refused n hstep, hstep]⟩

/-- From the invariant a run answers a next state or ends in the requester's read of a missing result. -/
theorem MachineInv.run_cases {s : State} (h : MachineInv s) (n : Nat) :
    (∃ t, runSteps n s = .next t) ∨ ∃ k, runSteps n s = .fault (.resultHasNoValue k) := by
  obtain ⟨t, -, hrun⟩ | ⟨t, ht, hstop, hrun⟩ := run_of_kept everyStepKeepsTheInvariant n h
  · exact .inl ⟨t, hrun⟩
  · obtain ⟨u, hu⟩ | ⟨k, -, hk⟩ := ht.step_cases
    · exact absurd hu (hstop u)
    · exact .inr ⟨k, hrun.trans hk⟩

/-- With literal operands it never stops. -/
theorem MachineInv.safeRun_of_literal {s : State} (h : MachineInv s) (hlit : literalProgram s.program = true) : SafeRun s := by
  intro n
  obtain ⟨t, -, hrun⟩ | ⟨t, ⟨ht, hl⟩, hstop, -⟩ := run_of_kept
    (P := fun s => MachineInv s ∧ literalProgram s.program = true)
    (fun s t hs hstep => ⟨everyStepKeepsTheInvariant s t hs.1 hstep, step_keeps_literalProgram hs.2 hstep⟩) n ⟨h, hlit⟩
  · exact ⟨t, hrun⟩
  · obtain ⟨u, hu⟩ | ⟨k, hk, -⟩ := ht.step_cases
    · exact absurd hu (hstop u)
    · exact absurd hk (offer_ne_noValue_of_literal hl k)

/-- Settles O50, from the cases of a run. -/
theorem runsStopOnlyOnReadingAMissingResult : Obligations.RunsStopOnlyOnReadingAMissingResult := by
  intro s n h
  refine ⟨fun r hr => ?_, fun r hr => ?_, h.safeRun_of_literal⟩
  · obtain ⟨t, ht⟩ | ⟨k, hk⟩ := h.run_cases n
    · rw [ht] at hr; cases hr
    · rw [hk] at hr; cases hr; exact ⟨k, rfl⟩
  · obtain ⟨t, ht⟩ | ⟨k, hk⟩ := h.run_cases n
    · rw [ht] at hr; cases hr
    · rw [hk] at hr; cases hr

end Sys2Proof.Machine
end

section
/-! PROOFS. Steps one by one: reset, initialisation, acceptance and response, what each writes and what it leaves (O8, O10, O11, O12,
O22, O23, O24). -/

namespace Sys2Proof.Machine

/-! ### Reset and initialisation -/

theorem reqReady_of_not_ready {s : State} (h : s.tblReady = false) : reqReady s = false := by simp [reqReady, h]

theorem reqReady_of_room {s : State} (h : s.tblReady = true) (hroom : s.inflight.length < Config.maxOutstanding) :
    reqReady s = true := by simp [reqReady, h, hroom]

/-- The initialisation step of a unit that is not initialised. -/
theorem step_of_init {s : State} {rest : List Slot} (h : s.schedule = { rst := false, turn := .init } :: rest)
    (hready : s.tblReady = false) : step s = .next (buildTables (beginStep s)) := by
  rw [step_of_turn h]; exact initTurn_of_not_ready (s := beginStep s) hready

/-- Settles O8: the reset step, and the initialisation step after it. -/
theorem resetAndInitialisedValues : Obligations.ResetAndInitialisedValues := by
  refine ⟨⟨rfl, ⟨rfl, rfl⟩, rfl, rfl, rfl⟩, fun s tn rest hs => ?_⟩
  refine ⟨_, step_of_rst hs, rfl, tablesUnset_resetUnit _, rfl, rfl, rfl, fun rest' hrest => ?_⟩
  have hnext : (resetUnit (beginStep s)).schedule = { rst := false, turn := .init } :: rest' := by simp [hs, hrest]
  exact ⟨_, step_of_init hnext rfl, rfl, tablesBuilt_buildTables _, rfl, rfl, reqReady_of_room rfl (Nat.succ_pos _)⟩

theorem initBaseTable_getElem? {i : Nat} (h : i < 512) : initBaseTable[i]? = some (some (initBase i)) := by
  rw [Vector.getElem?_eq_getElem h, initBaseTable_getElem i h]

theorem initShiftTable_getElem? {i : Nat} (h : i < 512) : initShiftTable[i]? = some (some (initShift i)) := by
  rw [Vector.getElem?_eq_getElem h, initShiftTable_getElem i h]

/-- Settles O10: the turn of a unit that is not initialised, and of one that is. -/
theorem initialisationStepBuildsTables : Obligations.InitialisationStepBuildsTables := by
  intro s rest hs
  refine ⟨by simp [initEnabled], fun hready => ?_, fun hready => ?_⟩
  · exact ⟨_, step_of_init hs hready, rfl, fun i hi => ⟨initBaseTable_getElem? hi, initShiftTable_getElem? hi⟩, rfl, rfl, rfl,
      rfl, by simp [hs]⟩
  · rw [step_of_turn hs, ← beginStep_of_slot hs]
    exact initTurn_of_ready (s := beginStep s) hready

/-- Settles O11, by the cases of a step. -/
theorem onlyResetAndInitWriteTables : Obligations.OnlyResetAndInitWriteTables := by
  intro s t h
  obtain ⟨hrst, rfl⟩ | ⟨hrst, hturn, hready, rfl⟩ | ⟨q, -, -, -, -, rfl⟩ | ⟨q, qs, r, -, -, -, -, rfl⟩ | ⟨-, -, rfl⟩ := step_next h
  · exact .inr (.inl ⟨hrst, tablesUnset_resetUnit _, rfl⟩)
  · exact .inr (.inr ⟨hrst, hturn, hready, tablesBuilt_buildTables _, rfl⟩)
  · exact .inl ⟨rfl, rfl, rfl⟩
  · exact .inl ⟨rfl, rfl, rfl⟩
  · exact .inl ⟨rfl, rfl, rfl⟩

/-! ### Acceptance -/

/-- Settles O12: the request on the port and the room enable the step, which appends the request. -/
theorem acceptanceAppendsRequest : Obligations.AcceptanceAppendsRequest := by
  intro s rest q hs ho hready hroom
  have hrr := reqReady_of_room hready hroom
  refine ⟨by simp [acceptEnabled, reqValid, ho, hrr], ?_⟩
  rw [step_of_turn hs]
  exact (acceptTurn_of_ready (s := beginStep s) ho hrr).trans (by simp [acceptRequest, beginStep, hs])

/-! ### Responses -/

/-- Settles O22, by the cases of a step: only the answer of a request puts a response on the port. -/
theorem responsePortShowsThisStepsResponse : Obligations.ResponsePortShowsThisStepsResponse := by
  intro s t h
  obtain ⟨hrst, rfl⟩ | ⟨-, hturn, -, rfl⟩ | ⟨q, -, hturn, -, -, rfl⟩ | ⟨q, qs, r, hrst, hturn, hi, -, rfl⟩ | ⟨-, hidle, rfl⟩ :=
    step_next h
  · exact .inl ⟨rfl, rfl, by simp [hrst]⟩
  · exact .inl ⟨rfl, rfl, by simp [hturn]⟩
  · exact .inl ⟨rfl, rfl, by simp [hturn]⟩
  · exact .inr ⟨q, qs, r, hrst, hturn, hi, by simp [hi], rfl, rfl⟩
  · refine .inl ⟨rfl, rfl, fun ⟨_, hrespond, hne⟩ => ?_⟩
    obtain ⟨hturn, -⟩ | ⟨hturn, -⟩ | ⟨-, hi⟩ := hidle
    · rw [hturn] at hrespond; cases hrespond
    · rw [hturn] at hrespond; cases hrespond
    · exact hne hi

/-- Settles O23, by the cases of a step: an answer moves the head of INFLIGHT to the end of the answered requests. -/
theorem responsesComeInAcceptanceOrder : Obligations.ResponsesComeInAcceptanceOrder := by
  intro s t h hrst0
  obtain ⟨hrst, -⟩ | ⟨-, -, -, rfl⟩ | ⟨q, -, -, ho, -, rfl⟩ | ⟨q, qs, r, -, -, hi, -, rfl⟩ | ⟨-, -, rfl⟩ := step_next h
  · rw [hrst0] at hrst; cases hrst
  · exact .inl ⟨rfl, rfl⟩
  · exact .inr ⟨q, ho, rfl, by simp⟩
  · exact .inl ⟨rfl, by simp [hi]⟩
  · exact .inl ⟨rfl, rfl⟩

/-- Settles O24: an instruction only delivers its response. -/
theorem operationsChangeOnlyTheResponse : Obligations.OperationsChangeOnlyTheResponse := by
  intro i s t h
  obtain ⟨r, rfl⟩ := exec_next h
  exact ⟨rfl, rfl, rfl, rfl, fun _ _ => ⟨rfl, rfl⟩, r, rfl, rfl⟩

end Sys2Proof.Machine
end

section
/-! PROOFS. The tables as the spec lists them: entries by class of the exponent byte, and their symmetry in the sign (O5, O6, O7). -/

namespace Sys2Proof.Machine

theorem positiveKey_eq {i : Nat} (h : i < 256) :
    initBase i = BitVec.ofNat 16 (positiveBase i) ∧ initShift i = BitVec.ofNat 8 (shiftAmount i) := by
  rw [initBase, initShift, Nat.mod_eq_of_lt h, if_neg (by omega), Nat.or_zero]
  exact ⟨rfl, rfl⟩

/-- The binary16 subnormals: one bit of BASE, and a shift that grows as the exponent falls. -/
theorem entries_of_subnormal {e : Nat} (h1 : 103 ≤ e) (h2 : e ≤ 112) :
    positiveBase e = 2 ^ (e - 103) ∧ shiftAmount e = 126 - e := by
  obtain ⟨hk, hc⟩ := entries_of_middle h1 (by omega)
  have hmax : max 13 (126 - e) = 126 - e := by omega
  rw [hc, hk, hmax, show e - 113 = 0 by omega, show 23 - (126 - e) = e - 103 by omega, zero_mul, zero_add]
  exact ⟨rfl, rfl⟩

theorem entries_of_normal {e : Nat} (h1 : 113 ≤ e) (h2 : e ≤ 142) :
    positiveBase e = (e - 112) * 2 ^ 10 ∧ shiftAmount e = 13 := by
  obtain ⟨hk, hc⟩ := entries_of_middle (by omega) h2
  have hmax : max 13 (126 - e) = 13 := by omega
  rw [hc, hk, hmax]
  omega

/-- Infinities and NaNs. -/
theorem entries_of_special : positiveBase 255 = 0x7C00 ∧ shiftAmount 255 = 13 := by decide

/-- Settles O5, by the classes of the exponent byte. -/
theorem tableInitIsTheListing : Obligations.TableInitIsTheListing := by
  intro i hi
  obtain ⟨hbase, hshift⟩ := positiveKey_eq hi
  rw [hbase, hshift]
  refine ⟨fun h => ?_, fun h1 h2 => ?_, fun h1 h2 => ?_, fun h1 h2 => ?_, fun h => ?_⟩
  · obtain ⟨hc, hk⟩ := entries_of_tiny (e := i) (by omega)
    rw [hc, hk]; exact ⟨rfl, rfl⟩
  · obtain ⟨hc, hk⟩ := entries_of_subnormal h1 h2
    rw [hc, hk]; exact ⟨rfl, rfl⟩
  · obtain ⟨hc, hk⟩ := entries_of_normal h1 h2
    rw [hc, hk, mul_comm]; exact ⟨rfl, rfl⟩
  · obtain ⟨hc, hk⟩ := entries_of_large (e := i) h1 (by omega)
    rw [hc, hk]; exact ⟨rfl, rfl⟩
  · rw [h, entries_of_special.1, entries_of_special.2]; exact ⟨rfl, rfl⟩

theorem key_classes {e : Nat} (he : e < 256) :
    e < 103 ∨ (103 ≤ e ∧ e ≤ 142) ∨ (143 ≤ e ∧ e < 255) ∨ e = 255 := by omega

theorem shiftAmount_bounds {e : Nat} (h : e < 256) : 13 ≤ shiftAmount e ∧ shiftAmount e ≤ 24 := by
  obtain h1 | ⟨h1, h2⟩ | ⟨h1, h2⟩ | rfl := key_classes h
  · have := (entries_of_tiny h1).2; omega
  · have := (entries_of_middle h1 h2).1; omega
  · have := (entries_of_large h1 h2).2; omega
  · have := entries_of_special.2; omega

/-- Settles O7: the entry is that of the low byte of the index. -/
theorem shiftEntriesAreThirteenToTwentyFour : Obligations.ShiftEntriesAreThirteenToTwentyFour := by
  intro i
  have h := shiftAmount_bounds (Nat.mod_lt i (by norm_num : 0 < 0x100))
  rwa [initShift, BitVec.toNat_ofNat, Nat.mod_eq_of_lt (h.2.trans_lt (by norm_num))]

theorem signed_key_eq {i : Nat} (h : i < 256) : 0x100 ||| i = 256 + i :=
  (Nat.two_pow_add_eq_or_of_lt (i := 8) h 1).symm

theorem initBase_negative {i : Nat} (h : i < 256) : initBase (256 + i) = initBase i ||| 0x8000#16 := by
  rw [(positiveKey_eq h).1, initBase, show (256 + i) % 0x100 = i by omega, if_pos (by omega), BitVec.ofNat_or]

theorem initShift_negative (i : Nat) : initShift (256 + i) = initShift i := by
  rw [initShift, initShift, Nat.add_mod_left]

/-- Settles O6: a negative key has the low byte of its positive one. -/
theorem tablesAreSignSymmetric : Obligations.TablesAreSignSymmetric := by
  rintro s ⟨hbase, hshift⟩
  rw [hbase, hshift]
  refine ⟨fun i hi => ⟨initBase i, initShift i, initBaseTable_getElem? (by omega), ?_, initShiftTable_getElem? (by omega), ?_⟩,
    initBaseTable_getElem? (by norm_num), initShiftTable_getElem? (by norm_num)⟩
  · rw [signed_key_eq (by omega), initBaseTable_getElem? (by omega), initBase_negative (by omega)]
  · rw [signed_key_eq (by omega), initShiftTable_getElem? (by omega), initShift_negative]

end Sys2Proof.Machine
end

section
/-! PROOFS. Narrowing by class of the key: rounding to nearest even on kept and dropped bits, infinities and NaNs, overflow and the
sign (O32, O34, O37, O38, O40). -/

namespace Sys2Proof.Machine

/-! ### The instruction -/

theorem tableKey_singleOperand (a : OperandWord) : tableKey (singleOperand a) = a.extractLsb' 23 9 := by
  apply BitVec.eq_of_toNat_eq
  simp only [tableKey, singleOperand, BitVec.extractLsb'_toNat, Nat.shiftRight_eq_div_pow]
  omega

/-- Settles O32: a read of built tables finds the entries of TableInit, and a read of unset tables finds none. -/
theorem truncsfhfAnswersOnceTablesAreBuilt : Obligations.TruncsfhfAnswersOnceTablesAreBuilt := by
  intro a s
  refine ⟨fun hb => exec_of_built hb (.truncsfhf2 a), fun hu => ?_⟩
  rw [← tableKey_singleOperand]
  simp only [exec, execTruncsfhf2, readTables_of_unset hu]

/-! ### The increment on kept and dropped bits -/

/-- The increment of rounding to nearest, ties to even, where `dropped` of a `unit` is dropped below `kept` (R105, R106). -/
def roundUp (kept dropped unit : Nat) : Nat :=
  if unit < 2 * dropped ∨ (2 * dropped = unit ∧ kept % 2 = 1) then 1 else 0

theorem roundUp_congr {p q : Nat} (h : p % 2 = q % 2) (d u : Nat) : roundUp p d u = roundUp q d u := by
  rw [roundUp, roundUp, h]

/-- The highest dropped bit and the bits below it say how much is dropped. -/
theorem ite_next_bit_eq_roundUp {k : Nat} (hk : 0 < k) (p m : Nat) :
    (if m / 2 ^ (k - 1) % 2 = 1 ∧ (p % 2 = 1 ∨ m % 2 ^ (k - 1) ≠ 0) then 1 else 0) = roundUp p (m % 2 ^ k) (2 ^ k) := by
  obtain ⟨i, rfl⟩ := Nat.exists_eq_succ_of_ne_zero hk.ne'
  have hlow : m % 2 ^ i < 2 ^ i := Nat.mod_lt _ (by positivity)
  have hbit : m / 2 ^ i % 2 < 2 := Nat.mod_lt _ (by norm_num)
  rw [roundUp, Nat.succ_sub_one, Nat.mod_pow_succ, pow_succ]
  generalize m / 2 ^ i % 2 = b at *
  generalize m % 2 ^ i = w at *
  generalize 2 ^ i = H at *
  refine if_congr ?_ rfl rfl
  obtain rfl | rfl : b = 0 ∨ b = 1 := by omega
  · omega
  · omega

theorem roundShift_eq_roundUp {k : Nat} (hk : 0 < k) (N : Nat) :
    roundShift k N = N / 2 ^ k + roundUp (N / 2 ^ k) (N % 2 ^ k) (2 ^ k) := by
  rw [roundShift, ite_next_bit_eq_roundUp hk]

/-! ### The narrowed pattern of subnormal, normal and special keys -/

theorem narrowSingle_of_subnormal {f : Single} {e m : Nat} (he : expOf .single f.toNat = e) (hm : mantOf .single f.toNat = m)
    (h1 : 103 ≤ e) (h2 : e ≤ 112) :
    (narrowSingle f).toNat = signOf .single f.toNat * 2 ^ 15 + (2 ^ (e - 103) + m / 2 ^ (126 - e)) +
      roundUp (2 ^ (e - 103) + m / 2 ^ (126 - e)) (m % 2 ^ (126 - e)) (2 ^ (126 - e)) := by
  obtain ⟨hc, hk⟩ := entries_of_subnormal h1 h2
  have hm23 : m < 2 ^ 23 := hm ▸ mantOf_lt single_proper _
  have hbase : 2 ^ (e - 103) ≤ 2 ^ 9 := Nat.pow_le_pow_right (by norm_num) (by omega)
  have hquot : m / 2 ^ (126 - e) < 2 ^ 9 := by
    rw [Nat.div_lt_iff_lt_mul (by positivity), ← pow_add]
    exact hm23.trans_le (Nat.pow_le_pow_right (by norm_num) (by omega))
  rw [narrowSingle_toNat he hm hk (by omega) hc (by omega), ite_next_bit_eq_roundUp (by omega)]
  exact (add_assoc _ _ _).symm

theorem narrowSingle_of_normal {f : Single} {e m : Nat} (he : expOf .single f.toNat = e) (hm : mantOf .single f.toNat = m)
    (h1 : 113 ≤ e) (h2 : e ≤ 142) :
    (narrowSingle f).toNat = signOf .single f.toNat * 2 ^ 15 + ((e - 112) * 2 ^ 10 + m / 2 ^ 13) +
      roundUp (m / 2 ^ 13) (m % 2 ^ 13) (2 ^ 13) := by
  obtain ⟨hc, hk⟩ := entries_of_normal h1 h2
  have hm23 : m < 2 ^ 23 := hm ▸ mantOf_lt single_proper _
  rw [narrowSingle_toNat he hm hk (by norm_num) hc (by omega), ite_next_bit_eq_roundUp (by norm_num),
    roundUp_congr (q := m / 2 ^ 13) (by omega)]
  exact (add_assoc _ _ _).symm

/-- The fields of a binary32 pattern, as R106 writes them. -/
theorem single_fields (f : Single) :
    f.toNat / 2 ^ 31 = signOf .single f.toNat ∧ f.toNat / 2 ^ 23 % 2 ^ 8 = expOf .single f.toNat ∧
      f.toNat % 2 ^ 23 = mantOf .single f.toNat := by
  have h := f.isLt
  refine ⟨?_, (expOf_eq single_proper _).symm, (mantOf_eq single_proper _).symm⟩
  rw [signOf_eq]
  simp only [Format.single]
  omega

/-- Infinities and NaNs: the mantissa, rounded to the 10 bits that are left, is added to the infinity, and the sum wraps (R104). -/
theorem narrowSingle_of_special {f : Single} (he : expOf .single f.toNat = 255) :
    (narrowSingle f).toNat =
      (signOf .single f.toNat * 2 ^ 15 + 0x7C00 + roundShift 13 (mantOf .single f.toNat)) % 2 ^ 16 := by
  obtain ⟨hc, hk⟩ := entries_of_special
  obtain ⟨-, -, hm⟩ := single_fields f
  have hs := signOf_lt .single f.toNat
  rw [narrowSingle, narrowWith_toNat, tableKey_fields, he, initBase_toNat hs (by norm_num) (by rw [hc]; norm_num),
    initShift_toNat (by norm_num) (by rw [hk]; norm_num), hc, hk, hm]
  dsimp only
  generalize signOf .single f.toNat = s at *
  generalize mantOf .single f.toNat = m
  have hpar : (s * 2 ^ 15 + 0x7C00 + m / 2 ^ 13) % 2 ^ 16 % 2 = m / 2 ^ 13 % 2 := by omega
  rw [hpar, roundShift]
  split_ifs <;> omega

theorem singleOperand_toNat (a : OperandWord) : (singleOperand a).toNat = a.toNat % 2 ^ 32 := by
  simp [singleOperand]

/-- Settles O34, by the classes of the key. -/
theorem truncsfhfResultByKeyClass : Obligations.TruncsfhfResultByKeyClass := by
  intro a s hb
  refine ⟨narrowSingle (singleOperand a), (truncsfhfAnswersOnceTablesAreBuilt a s).1 hb, ?_⟩
  rw [← singleOperand_toNat]
  generalize singleOperand a = f
  obtain ⟨hs, he, hm⟩ := single_fields f
  dsimp only
  rw [hs, he, hm]
  refine ⟨fun h => ?_, fun h1 h2 k hk => ?_, fun h1 h2 => narrowSingle_of_normal rfl rfl h1 h2, fun h1 h2 => ?_, fun h => ?_⟩
  · simpa [compose, Format.half] using narrowSingle_of_tiny (f := f) (by omega)
  · subst hk; exact narrowSingle_of_subnormal rfl rfl h1 h2
  · simpa [compose, Format.half] using narrowSingle_of_large (f := f) h1 (by omega)
  · rw [narrowSingle_of_special h, roundShift_eq_roundUp (by norm_num), ← add_assoc]; rfl

/-! ### Infinities and NaNs -/

/-- A mantissa of 23 bits rounded to 10: where it vanishes, and where it carries out. -/
theorem roundShift_mantissa {m : Nat} (hm : m < 2 ^ 23) :
    (m ≤ 0x001000 → roundShift 13 m = 0) ∧ (0x001001 ≤ m → m ≤ 0x7FEFFF → 0 < roundShift 13 m ∧ roundShift 13 m < 2 ^ 10) ∧
      (0x7FF000 ≤ m → roundShift 13 m = 2 ^ 10) := by
  obtain ⟨hup, hdown, heven⟩ := roundShift_nearest (k := 13) (by norm_num) m
  omega

theorem isNaN_half_of_sum {s q : Nat} (h0 : 0 < q) (hq : q < 2 ^ 10) : isNaN .half (s * 2 ^ 15 + 0x7C00 + q) := by
  change isNaN .half (compose .half s 31 q)
  rw [isNaN, expOf_compose half_proper (by decide) hq, mantOf_compose half_proper hq]
  exact ⟨rfl, h0.ne'⟩

theorem getLsbD_eq_decide {n : Nat} (v : BitVec n) (i : Nat) : v.getLsbD i = decide (v.toNat / 2 ^ i % 2 = 1) := by
  rw [BitVec.getLsbD, Nat.testBit_eq_decide_div_mod_eq]

/-- The increment of a special key by the bits of f, as R109 writes it. -/
theorem roundShift_mantissa_bits (f : Single) :
    roundShift 13 (f.toNat % 2 ^ 23) = f.toNat % 2 ^ 23 / 2 ^ 13 +
      if f.getLsbD 12 = true ∧ (f.getLsbD 13 = true ∨ f.toNat % 2 ^ 23 % 2 ^ 12 ≠ 0) then 1 else 0 := by
  have h12 : f.toNat % 2 ^ 23 / 2 ^ 12 % 2 = f.toNat / 2 ^ 12 % 2 := by omega
  have h13 : f.toNat % 2 ^ 23 / 2 ^ 13 % 2 = f.toNat / 2 ^ 13 % 2 := by omega
  simp only [roundShift, getLsbD_eq_decide, decide_eq_true_eq, Nat.reduceSub, h12, h13]

/-- Settles O38: the rounded mantissa vanishes, is a payload, or carries out into the sign. -/
theorem narrowingOfInfinityAndNaN : Obligations.NarrowingOfInfinityAndNaN := by
  intro f he
  have hs := signOf_lt .single f.toNat
  have hm : f.toNat % 2 ^ 23 < 2 ^ 23 := Nat.mod_lt _ (by norm_num)
  obtain ⟨hzero, hmid, hcarry⟩ := roundShift_mantissa hm
  obtain ⟨-, -, hmant⟩ := single_fields f
  have hr := narrowSingle_of_special he
  rw [← hmant] at hr
  dsimp only
  refine ⟨fun h => ?_, fun h1 h2 => ?_, fun h => ?_⟩
  · rw [hr, hzero h]; omega
  · obtain ⟨h0, hlt⟩ := hmid h1 h2
    rw [add_assoc _ (_ / _), ← roundShift_mantissa_bits f, hr, Nat.mod_eq_of_lt (by omega)]
    exact ⟨isNaN_half_of_sum h0 hlt, rfl⟩
  · rw [hr, hcarry h]
    split_ifs <;> omega

/-! ### The sign -/

theorem half_sign_bit (h : Half) : h.getLsbD 15 = decide (signOf .half h.toNat = 1) := by
  rw [getLsbD_eq_decide, signOf_eq]; rfl

theorem single_sign_bit (f : Single) : f.getLsbD 31 = decide (signOf .single f.toNat = 1) := by
  rw [getLsbD_eq_decide, signOf_eq]; rfl

theorem signOf_narrowSingle_of_finite {f : Single} (hfin : isFinite .single f.toNat) :
    signOf .half (narrowSingle f).toNat = signOf .single f.toNat := by
  have hs := signOf_lt .single f.toNat
  obtain h | ⟨h1, h2⟩ | ⟨h1, h2⟩ | h := key_classes (expOf_lt single_proper f.toNat)
  · rw [narrowSingle_of_tiny h]; exact signOf_compose hs (by decide) (by decide)
  · have hle := (middleSteps_le (mantOf_lt single_proper f.toNat) h1).1
    rw [narrowSingle_of_middle h1 h2]
    exact signOf_compose hs (by simp only [Format.half]; omega) (Nat.mod_lt _ (by norm_num))
  · rw [narrowSingle_of_large h1 h2]; exact signOf_compose hs (by decide) (by decide)
  · exact absurd h hfin

/-- Among infinities and NaNs the carry out of the rounded mantissa, and nothing else, changes the sign. -/
theorem signOf_narrowSingle_of_special {f : Single} (he : expOf .single f.toNat = 255) :
    signOf .half (narrowSingle f).toNat =
      if 0x7FF000 ≤ mantOf .single f.toNat then 1 - signOf .single f.toNat else signOf .single f.toNat := by
  have hs := signOf_lt .single f.toNat
  obtain ⟨hzero, hmid, hcarry⟩ := roundShift_mantissa (mantOf_lt single_proper f.toNat)
  rw [signOf_eq, narrowSingle_of_special he]
  simp only [Format.half]
  split_ifs with h
  · rw [hcarry h]; omega
  · have hlt : roundShift 13 (mantOf .single f.toNat) < 2 ^ 10 := by
      by_cases h0 : mantOf .single f.toNat ≤ 0x001000
      · rw [hzero h0]; norm_num
      · exact (hmid (by omega) (by omega)).2
    omega

/-- Settles O40: finite patterns, then infinities and NaNs. -/
theorem narrowingKeepsSignExceptWrappingNaNs : Obligations.NarrowingKeepsSignExceptWrappingNaNs := by
  intro f
  rw [half_sign_bit, single_sign_bit]
  refine ⟨fun hnot => ?_, fun he hm => ?_⟩
  · by_cases he : expOf .single f.toNat = 255
    · rw [signOf_narrowSingle_of_special he, if_neg fun hm => hnot ⟨he, hm⟩]
    · rw [signOf_narrowSingle_of_finite he]
  · have hs := signOf_lt .single f.toNat
    rw [signOf_narrowSingle_of_special he, if_pos hm, ← decide_not, decide_eq_decide]
    omega

/-! ### Overflow -/

theorem abs_value (f : Format) (v : Nat) : |value f v| = magnitude f v := by
  rw [value, abs_mul, abs_neg_one_pow, one_mul, abs_of_nonneg (magnitude_nonneg f v)]

/-- The bits below the sign are the exponent byte and the mantissa. -/
theorem single_low_bits (f : Single) :
    f.toNat % 2 ^ 31 = expOf .single f.toNat * 2 ^ 23 + mantOf .single f.toNat := by
  obtain ⟨-, he, hm⟩ := single_fields f
  omega

/-- The overflow bound on patterns, by the classes of the key. -/
theorem overflow_iff (f : Single) : (65520 : ℚ) ≤ magnitude .single f.toNat ↔ 0x477FF000 ≤ f.toNat % 2 ^ 31 := by
  have hm : mantOf .single f.toNat < 2 ^ 23 := mantOf_lt single_proper _
  rw [single_low_bits]
  obtain h | h | h : expOf .single f.toNat < 103 ∨ 143 ≤ expOf .single f.toNat ∨
      (103 ≤ expOf .single f.toNat ∧ expOf .single f.toNat ≤ 142) := by omega
  · have hlt : magnitude .single f.toNat < 65520 :=
      (magnitude_lt_of_expOf_le (t := 103) single_proper h.le).trans (by norm_num [Format.single])
    exact iff_of_false (not_le.mpr hlt) (by omega)
  · have hpow : (2 : ℚ) ^ (16 : ℤ) ≤ 2 ^ ((expOf .single f.toNat : ℤ) - Format.single.B) :=
      zpow_le_zpow_right₀ (by norm_num) (by rw [show Format.single.B = 127 from rfl]; omega)
    have hge := hpow.trans (two_pow_le_magnitude (by omega))
    exact iff_of_true (le_trans (by norm_num) hge) (by omega)
  · rw [← half_overflowBound, middle_overflow_iff h.1 h.2]
    omega

/-- Settles O37: correct rounding gives the infinity or a finite pattern, and what is not correctly rounded is a zero. -/
theorem narrowingOverflowsFrom65520 : Obligations.NarrowingOverflowsFrom65520 := by
  intro f hfin
  rw [abs_value, ← overflow_iff, ← not_le, ← overflow_iff, not_le]
  refine ⟨Iff.rfl, ?_⟩
  by_cases h : expOf .single f.toNat = 0x66 ∧ mantOf .single f.toNat ≠ 0
  · rw [narrowSingle_of_tiny (by omega)]
    refine ⟨fun hx => ?_, fun _ => ?_⟩
    · have hbits := (overflow_iff f).mp hx
      rw [single_low_bits, h.1] at hbits
      have hm : mantOf .single f.toNat < 2 ^ 23 := mantOf_lt single_proper _
      omega
    · rw [isFinite, expOf_compose half_proper (by decide) (by decide)]; decide
  · obtain ⟨-, hnear, hinf⟩ := narrowingIsCorrectlyRoundedElsewhere f hfin h
    rw [abs_value, half_overflowBound] at hnear hinf
    refine ⟨fun hx => ?_, fun hx => (hnear hx).1⟩
    rw [hinf hx, infinityOf]
    obtain ⟨hs, hv⟩ | ⟨hs, hv⟩ := value_cases .single f.toNat
    · rw [if_neg (by rw [hv]; linarith), hs]; rfl
    · rw [if_pos (by rw [hv]; linarith), hs]; rfl

end Sys2Proof.Machine
end

section
/-! PROOFS. Runs without reset: what is left to do shrinks with every step, and the observation a state promises stays the same (O52). -/

namespace Sys2Proof.Machine

/-! ### The request port of a program of literals -/

/-- The port shows the first line, which is the first request of the program; it is empty only when no line is left. -/
theorem offer_cases_of_literal {s : State} (h : literalProgram s.program = true) :
    (s.program = [] ∧ offer s = .nothing) ∨
    ∃ q l ls, s.program = l :: ls ∧ offer s = .request q ∧ literalRequests s.program = q :: literalRequests ls := by
  cases hp : s.program with
  | nil => exact .inl ⟨rfl, by simp only [offer, hp]⟩
  | cons l ls =>
    cases hl : l.operand with
    | lit a => exact .inr ⟨_, l, ls, rfl, offer_of_literal hp hl, by simp [literalRequests, hl]⟩
    | result k => simp [literalProgram, hp, hl] at h

/-- The request on the port is the first one the program presents, and a line stands behind it. -/
theorem requests_of_offer {s : State} (h : literalProgram s.program = true) {q : Request} (ho : offer s = .request q) :
    s.program ≠ [] ∧ literalRequests s.program = q :: literalRequests s.program.tail := by
  obtain ⟨-, hnone⟩ | ⟨q', l, ls, hp, hq, hreqs⟩ := offer_cases_of_literal h
  · rw [hnone] at ho; cases ho
  · rw [hq] at ho; cases ho
    exact ⟨by simp [hp], by rw [hreqs, hp, List.tail_cons]⟩

/-! ### What is left to do -/

/-- The number of steps within which a run of literals has used up its schedule and answered everything (R189, in the order of log 4):
one per entry of the schedule, one for an initialisation after it, one per answer and one per acceptance. -/
def stepsLeft (s : State) : Nat :=
  s.schedule.length + (if s.schedule = [] ∧ s.tblReady = true then 0 else 1) + s.inflight.length + 2 * s.program.length

theorem stepsLeft_le (s : State) :
    stepsLeft s ≤ s.schedule.length + 1 + s.inflight.length + 2 * s.program.length := by
  unfold stepsLeft; split <;> omega

theorem stepsLeft_eq_zero_iff (s : State) :
    stepsLeft s = 0 ↔ s.schedule = [] ∧ s.tblReady = true ∧ s.inflight = [] ∧ s.program = [] := by
  by_cases h : s.schedule = [] ∧ s.tblReady = true
  · obtain ⟨hs, hready⟩ := h
    simp [stepsLeft, hs, hready]
  · simp only [stepsLeft, h, ↓reduceIte]
    exact ⟨fun h0 => by omega, fun ⟨hs, hready, _⟩ => absurd ⟨hs, hready⟩ h⟩

theorem stepsLeft_of_ready {s : State} (hs : s.schedule = []) (hready : s.tblReady = true) :
    stepsLeft s = s.inflight.length + 2 * s.program.length := by simp [stepsLeft, hs, hready]

theorem stepsLeft_of_not_ready {s : State} (hs : s.schedule = []) (hready : s.tblReady = false) :
    stepsLeft s = 1 + s.inflight.length + 2 * s.program.length := by simp [stepsLeft, hs, hready]

theorem step_schedule {s t : State} (h : step s = .next t) : t.schedule = s.schedule.tail := by
  obtain ⟨-, rfl⟩ | ⟨-, -, -, rfl⟩ | ⟨q, -, -, -, -, rfl⟩ | ⟨q, qs, r, -, -, -, -, rfl⟩ | ⟨-, -, rfl⟩ := step_next h
  · rfl
  · rfl
  · rfl
  · rfl
  · rfl

/-- Acceptance turns a line into one request in flight; no other step adds work. -/
theorem step_work_le {s t : State} (hlit : literalProgram s.program = true) (h : step s = .next t) :
    t.inflight.length + 2 * t.program.length ≤ s.inflight.length + 2 * s.program.length := by
  obtain ⟨-, rfl⟩ | ⟨-, -, -, rfl⟩ | ⟨q, -, -, ho, -, rfl⟩ | ⟨q, qs, r, -, -, -, -, rfl⟩ | ⟨-, -, rfl⟩ := step_next h
  · simp
  · simp
  · have hline := List.length_pos_iff.mpr (requests_of_offer hlit ho).1
    simp only [acceptRequest_inflight, acceptRequest_program, beginStep_inflight, beginStep_program, List.length_append,
      List.length_singleton, List.length_tail]
    omega
  · simp
  · simp

/-- With no schedule left the fair turn (log 4) initialises, answers or accepts, as long as anything is left to do. -/
theorem stepsLeft_of_fair_step {s t : State} (hlit : literalProgram s.program = true) (hs : s.schedule = [])
    (h : step s = .next t) : stepsLeft t ≤ stepsLeft s - 1 := by
  have ht : t.schedule = [] := by rw [step_schedule h, hs, List.tail_nil]
  rw [step_of_nil hs] at h
  cases hready : s.tblReady with
  | false =>
    have hfair : fairTurn s = .init := by simp [fairTurn, hready]
    rw [hfair, takeTurn, initTurn_of_not_ready (s := beginStep s) hready] at h
    cases h
    rw [stepsLeft_of_not_ready hs hready, stepsLeft_of_ready ht rfl]
    simp only [buildTables_inflight, buildTables_program, beginStep_inflight, beginStep_program]
    omega
  | true =>
    rw [stepsLeft_of_ready hs hready]
    cases hi : s.inflight with
    | cons q qs =>
      have hfair : fairTurn s = .respond := by simp [fairTurn, hready, hi]
      rw [hfair, takeTurn, respondTurn_of_cons (s := beginStep s) hi] at h
      obtain ⟨r, hr⟩ | ⟨key, -, hf⟩ := runRequest_cases q (takeHead (beginStep s))
      · rw [hr] at h; cases h
        rw [stepsLeft_of_ready ht hready]
        simp only [deliver_inflight, deliver_program, takeHead_inflight, takeHead_program, beginStep_inflight,
          beginStep_program, hi, List.tail_cons, List.length_cons]
        omega
      · rw [hf] at h; cases h
    | nil =>
      have hfair : fairTurn s = .accept := by simp [fairTurn, hready, hi]
      rw [hfair, takeTurn] at h
      obtain ⟨hp, ho⟩ | ⟨q, l, ls, hp, ho, -⟩ := offer_cases_of_literal hlit
      · rw [acceptTurn_of_nothing (s := beginStep s) ho] at h; cases h
        rw [stepsLeft_of_ready ht hready]
        simp [hi, hp]
      · have hroom : reqReady s = true := reqReady_of_room hready (by rw [hi]; exact Nat.succ_pos _)
        rw [acceptTurn_of_ready (s := beginStep s) ho hroom] at h; cases h
        rw [stepsLeft_of_ready ht hready]
        simp only [acceptRequest_inflight, acceptRequest_program, beginStep_inflight, beginStep_program, hi, hp,
          List.nil_append, List.tail_cons, List.length_cons, List.length_nil]
        omega

/-- Every step, a reset included, leaves one step less to do. -/
theorem stepsLeft_of_step {s t : State} (hlit : literalProgram s.program = true) (h : step s = .next t) :
    stepsLeft t ≤ stepsLeft s - 1 := by
  cases hs : s.schedule with
  | nil => exact stepsLeft_of_fair_step hlit hs h
  | cons slot rest =>
    have hwork := step_work_le hlit h
    have hle := stepsLeft_le t
    have heq : stepsLeft s = rest.length + 1 + 1 + s.inflight.length + 2 * s.program.length := by simp [stepsLeft, hs]
    rw [step_schedule h, hs, List.tail_cons] at hle
    omega

/-! ### The observation a state promises -/

/-- What the observation becomes once everything in flight and every line is answered as the spec says. -/
def promised (s : State) : List (Request × Response) :=
  s.delivered ++ (s.inflight ++ literalRequests s.program).map fun q => (q, specResponse q)

theorem promised_of_answered {s : State} (hi : s.inflight = []) (hp : s.program = []) : promised s = s.delivered := by
  simp [promised, hi, hp, literalRequests]

/-- Without reset, acceptance moves a request from the lines to INFLIGHT and an answer moves it on to the observation, in order. -/
theorem step_keeps_promised {s t : State} (hinv : MachineInv s) (hlit : literalProgram s.program = true)
    (hrst0 : (nextSlot s).rst = false) (h : step s = .next t) : promised t = promised s := by
  obtain ⟨hrst, -⟩ | ⟨-, -, -, rfl⟩ | ⟨q, -, -, ho, -, rfl⟩ | ⟨q, qs, r, -, -, hi, hrun, -⟩ | ⟨-, -, rfl⟩ := step_next h
  · rw [hrst0] at hrst; cases hrst
  · rfl
  · simp [promised, (requests_of_offer hlit ho).2]
  · rw [runRequest_of_built (s := takeHead (beginStep s)) (hinv.built_of_inflight hi)] at hrun
    cases hrun
    simp [promised, hi]
  · rfl

/-- A schedule without reset. -/
def ResetFree (s : State) : Prop := ∀ slot ∈ s.schedule, slot.rst = false

theorem ResetFree.nextSlot {s : State} (h : ResetFree s) : (nextSlot s).rst = false := by
  unfold Machine.nextSlot
  cases hs : s.schedule with
  | nil => rfl
  | cons slot rest => exact h slot (by simp [hs])

theorem ResetFree.step {s t : State} (h : ResetFree s) (hstep : step s = .next t) : ResetFree t := by
  intro slot hslot
  rw [step_schedule hstep] at hslot
  exact h slot (List.mem_of_mem_tail hslot)

/-! ### Runs -/

/-- A property that every step keeps holds of the state a run ends in. -/
theorem run_keeps {P : State → Prop} (hkeep : ∀ s t, P s → step s = .next t → P t) {n : Nat} {s t : State} (hs : P s)
    (hrun : runSteps n s = .next t) : P t := by
  obtain ⟨u, hu, hend⟩ | ⟨u, -, hstop, hend⟩ := run_of_kept hkeep n hs
  · rw [hend] at hrun; cases hrun; exact hu
  · exact absurd (hend.symm.trans hrun) (hstop t)

theorem stepsLeft_of_run (n : Nat) : ∀ {s t : State}, literalProgram s.program = true → runSteps n s = .next t →
    stepsLeft t ≤ stepsLeft s - n := by
  induction n with
  | zero => intro s t _ h; cases h; exact le_rfl
  | succ n ih =>
    intro s t hlit h
    cases hstep : step s with
    | next u =>
      rw [run_succ n hstep] at h
      have hfirst := stepsLeft_of_step hlit hstep
      have hrest := ih (step_keeps_literalProgram hlit hstep) h
      omega
    | fault r => rw [run_succ_fault n hstep] at h; cases h
    | refused r => rw [run_succ_refused n hstep] at h; cases h

/-- A run of literals that is as long as the bound has used up its schedule and answered everything, resets or not. -/
theorem answered_of_long_run {s t : State} (hlit : literalProgram s.program = true)
    (hrun : runSteps (s.schedule.length + 1 + s.inflight.length + 2 * s.program.length) s = .next t) :
    t.schedule = [] ∧ t.tblReady = true ∧ t.inflight = [] ∧ t.program = [] := by
  refine (stepsLeft_eq_zero_iff t).mp (Nat.le_zero.mp ((stepsLeft_of_run _ hlit hrun).trans ?_))
  exact (Nat.sub_eq_zero_of_le (stepsLeft_le s)).le

theorem run_keeps_promised {s t : State} (hinv : MachineInv s) (hlit : literalProgram s.program = true) (hfree : ResetFree s)
    {n : Nat} (hrun : runSteps n s = .next t) : promised t = promised s := by
  obtain ⟨-, -, -, hkept⟩ := run_keeps
    (P := fun u => MachineInv u ∧ literalProgram u.program = true ∧ ResetFree u ∧ promised u = promised s)
    (fun u v ⟨hu, hl, hf, hp⟩ hstep => ⟨everyStepKeepsTheInvariant u v hu hstep, step_keeps_literalProgram hl hstep,
      hf.step hstep, (step_keeps_promised hu hl hf.nextSlot hstep).trans hp⟩)
    ⟨hinv, hlit, hfree, rfl⟩ hrun
  exact hkept

/-- Settles O52: the run ends with everything answered, so its observation is what the first state promised. -/
theorem everyScheduleGivesTheSameObservation : Obligations.EveryScheduleGivesTheSameObservation := by
  intro s hinv hlit hfree
  obtain ⟨t, hrun⟩ := hinv.safeRun_of_literal hlit (s.schedule.length + 1 + s.inflight.length + 2 * s.program.length)
  obtain ⟨-, -, hi, hp⟩ := answered_of_long_run hlit hrun
  exact ⟨t, hrun, (promised_of_answered hi hp).symm.trans (run_keeps_promised hinv hlit hfree hrun)⟩

end Sys2Proof.Machine
end

section
/-! PROOFS. What a response depends on (O25). -/

namespace Sys2Proof.Machine

/-- Every instruction but truncsfhf2 answers as the spec says in every state: it reads no field of it. -/
theorem exec_of_ne_truncsfhf2 {i : Instr} (h : ∀ a, i ≠ .truncsfhf2 a) (s : State) :
    exec i s = .next (deliver i.request (specResponse i.request) s) := by
  cases i with
  | truncsfhf2 a => exact absurd rfl (h a)
  | extendhfsf2 a => rfl
  | extendsfdf2 a => rfl
  | truncdfhf2 a => rfl
  | truncdfsf2 a => rfl
  | floattisf a => rfl
  | floattidf a => rfl
  | floatuntisf a => rfl
  | floatuntidf a => rfl

/-- truncsfhf2 answers with what the table algorithm makes of the entries it reads. -/
theorem exec_truncsfhf2_of_read {s : State} {a : OperandWord} {b : BaseWord} {sh : ShiftWord}
    (h : readTables s (tableKey (singleOperand a)) = some (b, sh)) :
    exec (.truncsfhf2 a) s =
      .next (deliver (Instr.request (.truncsfhf2 a)) (.ok (halfResult (narrowWith b sh (singleOperand a)))) s) := by
  simp only [exec, execTruncsfhf2, h, respondOk]

/-- Where truncsfhf2 answers, both entries of its key hold a value. -/
theorem read_of_exec_truncsfhf2 {s t : State} {a : OperandWord} (h : exec (.truncsfhf2 a) s = .next t) :
    ∃ b sh, readTables s (tableKey (singleOperand a)) = some (b, sh) := by
  cases hread : readTables s (tableKey (singleOperand a)) with
  | none => simp only [exec, execTruncsfhf2, hread] at h; cases h
  | some p => exact ⟨p.1, p.2, rfl⟩

/-- Settles O25: truncsfhf2 reads the same entries in both states, and no other operation reads any. -/
theorem responsesDependOnTablesOnly : Obligations.ResponsesDependOnTablesOnly := by
  intro i s t u h htables
  by_cases htrunc : ∃ a, i = .truncsfhf2 a
  · obtain ⟨hbase, hshift⟩ := htables htrunc
    obtain ⟨a, rfl⟩ := htrunc
    obtain ⟨b, sh, hs⟩ := read_of_exec_truncsfhf2 h
    have hu := (readTables_congr hbase hshift _).symm.trans hs
    rw [exec_truncsfhf2_of_read hs] at h
    cases h
    exact ⟨_, exec_truncsfhf2_of_read hu, rfl⟩
  · have hexec := exec_of_ne_truncsfhf2 fun a ha => htrunc ⟨a, ha⟩
    rw [hexec s] at h
    cases h
    exact ⟨_, hexec u, rfl⟩

end Sys2Proof.Machine
end

section
/-! PROOFS. Request words and their decoder: decoding and encoding are inverse, and decoding is total over the op codes
(O1, O2, O3, O4). -/

namespace Sys2Proof.Machine

/-! ### Words and operations -/

/-- The word of a request decodes as the request does. -/
theorem decode_word (q : Request) : decode q.word = decodeRequest q := by rw [decode, ofWord_word]

theorem decode_encode (i : Instr) : decode (encode i) = .ok i := (Laws.RoundTrip.of_request i).2.2

/-- A word that decodes is the encoding of what it decodes to (R61, R65). -/
theorem encode_of_decode {w : RequestWord} {i : Instr} (h : decode w = .ok i) : encode i = w := by
  rw [encode, request_of_decodeRequest h, word_ofWord]

/-- No operation has a reserved op code. -/
theorem instr_wf (i : Instr) : i.wf = true := by cases i <;> rfl

theorem encode_injective {i j : Instr} (h : encode i = encode j) : i = j := by
  have hdecode : (.ok i : Except DecodeError Instr) = .ok j := by rw [← decode_encode i, h, decode_encode]
  exact Except.ok.inj hdecode

/-- Settles O2: the fields of the word are the request's, and the request decides the operation. -/
theorem decodeAndEncodeAreInverse : Obligations.DecodeAndEncodeAreInverse :=
  ⟨fun i _ => decode_encode i, fun _ i h => ⟨encode_of_decode h, instr_wf i⟩, fun _ _ => encode_injective⟩

/-- Settles O1: the decoder evaluated on ten closed words. -/
theorem specRequestWordsDecode : Obligations.SpecRequestWordsDecode := by
  unfold Obligations.SpecRequestWordsDecode
  decide

/-- An op code that is not reserved decodes, and to an operation with this request (R65). -/
theorem decodeRequest_of_not_reserved {q : Request} (h : q.op.toNat ≤ 8) :
    ∃ i, decodeRequest q = .ok i ∧ i.request = q := by
  cases hd : decodeRequest q with
  | ok i => exact ⟨i, rfl, request_of_decodeRequest hd⟩
  | error e =>
    obtain ⟨op⟩ := e
    have hreserved := (reserved_of_decodeRequest hd).2
    omega

/-- Settles O3: the decoder rejects exactly the reserved op codes. -/
theorem decodingIsTotalOverOpCodes : Obligations.DecodingIsTotalOverOpCodes := by
  intro w
  refine ⟨fun hop => ?_, fun hop => decodeRequest_of_reserved (q := Request.ofWord w) hop⟩
  obtain ⟨i, hd, hrequest⟩ := decodeRequest_of_not_reserved (q := Request.ofWord w) hop
  exact ⟨i, hd, congrArg Request.op hrequest, congrArg Request.a hrequest⟩

/-! ### The rows of the opcode table -/

/-- The bits of a request word as the opcode table writes them: op code above operand (R61). -/
theorem word_toNat (q : Request) : q.word.toNat = q.op.toNat * 2 ^ 128 + q.a.toNat := by
  rw [Request.word, BitVec.toNat_append, Nat.shiftLeft_eq, Nat.mul_comm, ← Nat.two_pow_add_eq_or_of_lt q.a.isLt]

/-- A table word of 136 bits that holds a request word stands for its request. -/
theorem requestOfTableWord_word (q : Request) : requestOfTableWord 136 q.word.toNat = q := by
  have hlt : q.word.toNat < 2 ^ 136 := q.word.isLt.trans (by decide)
  rw [requestOfTableWord, Nat.mod_eq_of_lt hlt, BitVec.ofNat_toNat, BitVec.setWidth_eq, ofWord_word]

theorem decodeTableWord_word (q : Request) : decodeTableWord 136 q.word.toNat = (decodeRequest q).toOption := by
  have hlt : q.word.toNat % 2 ^ 136 < 2 ^ 132 := (Nat.mod_le _ _).trans_lt q.word.isLt
  rw [decodeTableWord, if_pos hlt, requestOfTableWord_word]
  cases decodeRequest q <;> rfl

/-- The row of an operation, with its operand, decodes to it. -/
theorem decodeTableWord_row (i : Instr) :
    decodeTableWord 136 (i.opCode.toNat * 2 ^ 128 + i.operand.toNat) = some i := by
  have h := decodeTableWord_word i.request
  rwa [word_toNat, decodeRequest_request] at h

/-- No row stands at a reserved op code (R66), nor at a number that takes more than the four bits of an op code (R67). -/
theorem decodeTableWord_of_no_row {k : Nat} (hk : 9 ≤ k) (hmax : k < 256) (a : OperandWord) :
    decodeTableWord 136 (k * 2 ^ 128 + a.toNat) = none := by
  have ha := a.isLt
  by_cases h16 : k < 16
  · have hop : (BitVec.ofNat 4 k).toNat = k := Nat.mod_eq_of_lt h16
    have h := decodeTableWord_word { op := BitVec.ofNat 4 k, a := a }
    rw [word_toNat, decodeRequest_of_reserved (by rw [hop]; exact hk), hop] at h
    exact h
  · rw [decodeTableWord, if_neg (by omega)]

/-- Settles O4: nine rows, and none above them. -/
theorem opcodeTableRowsDecode : Obligations.OpcodeTableRowsDecode := fun a =>
  ⟨decodeTableWord_row (.extendhfsf2 a), decodeTableWord_row (.extendsfdf2 a), decodeTableWord_row (.truncsfhf2 a),
    decodeTableWord_row (.truncdfhf2 a), decodeTableWord_row (.truncdfsf2 a), decodeTableWord_row (.floattisf a),
    decodeTableWord_row (.floattidf a), decodeTableWord_row (.floatuntisf a), decodeTableWord_row (.floatuntidf a),
    fun _ hk hmax => decodeTableWord_of_no_row hk hmax a⟩

end Sys2Proof.Machine
end

section
/-! PROOFS. The answer of one request: the response step, its status, the bits it reads and the bits it writes
(O16, O17, O18, O21, O26, O27). -/

namespace Sys2Proof.Machine

/-! ### Response steps -/

/-- A response step runs the head of INFLIGHT, with the head gone, the port empty and its turn used up. -/
theorem step_of_respond {s : State} {rest : List Slot} {q : Request} {qs : List Request}
    (hs : s.schedule = { rst := false, turn := .respond } :: rest) (hi : s.inflight = q :: qs) :
    step s = runRequest q { s with inflight := qs, rsp := none, schedule := rest } := by
  rw [step_of_turn hs]
  exact (respondTurn_of_cons (s := beginStep s) hi).trans (by simp only [takeHead, beginStep, hi, hs, List.tail_cons])

/-- With no schedule left, a unit that is ready and has a request in flight takes a response step. -/
theorem step_of_nil_of_inflight {s : State} {q : Request} {qs : List Request} (hs : s.schedule = [])
    (hready : s.tblReady = true) (hi : s.inflight = q :: qs) :
    step s = runRequest q { s with inflight := qs, rsp := none } := by
  have hfair : fairTurn s = .respond := by simp [fairTurn, hready, hi]
  rw [step_of_nil hs, hfair]
  exact (respondTurn_of_cons (s := beginStep s) hi).trans
    (by simp only [takeHead, beginStep, hi, hs, List.tail_cons, List.tail_nil])

theorem runRequest_of_decode {q : Request} {i : Instr} (h : decodeRequest q = .ok i) (s : State) :
    runRequest q s = exec i s := by
  simp only [runRequest, h]

/-- Settles O16: both forms of a response step run the head of INFLIGHT. -/
theorem responseStepRunsDecodedOperation : Obligations.ResponseStepRunsDecodedOperation := by
  intro s q qs i hi hd
  rw [decode_word] at hd
  refine ⟨fun rest hs => ?_, fun hs hready => ?_⟩
  · rw [step_of_respond hs hi, runRequest_of_decode hd]
  · rw [step_of_nil_of_inflight hs hready hi, runRequest_of_decode hd]

/-- Settles O18: on built tables the head of INFLIGHT is answered as the spec says. -/
theorem responseStepAnswersHead : Obligations.ResponseStepAnswersHead := by
  intro s rest q qs hbuilt hs hi
  refine ⟨by simp [respondEnabled, hi], ?_⟩
  rw [step_of_respond hs hi, runRequest_of_built (s := { s with inflight := qs, rsp := none, schedule := rest }) hbuilt,
    deliver_eq_answered]

/-- A table word that decodes holds the request of its operation. -/
theorem request_of_decodeTableWord {nbits w : Nat} {i : Instr} (h : decodeTableWord nbits w = some i) :
    requestOfTableWord nbits w = i.request := by
  rw [decodeTableWord] at h
  split at h
  · cases hd : decodeRequest (requestOfTableWord nbits w) with
    | ok j =>
      simp only [hd, Option.some.injEq] at h
      rw [← h, request_of_decodeRequest hd]
    | error e => simp [hd] at h
  · cases h

/-- Settles O17: the placed word is the head of INFLIGHT of a unit with built tables. -/
theorem placedWordRunsNext : Obligations.PlacedWordRunsNext := by
  intro s nbits w i h
  refine ⟨_, ?_, rfl⟩
  rw [State.withFetchWord, request_of_decodeTableWord h]
  exact (responseStepAnswersHead _ _ _ _ (tablesBuilt_placeRequest i.request s) rfl rfl).2

/-! ### The response of an operation -/

/-- The response on the port after an operation is the one it delivered. -/
theorem rsp_of_exec {i : Instr} {r : Response} {s t : State} (hexec : exec i s = .next (deliver i.request r s))
    (h : exec i s = .next t) : t.rsp = some r := by
  rw [hexec] at h
  cases h
  rfl

/-- Where truncsfhf2 answers, the result is what the table algorithm makes of the entries it reads. -/
theorem rsp_of_exec_truncsfhf2 {a : OperandWord} {s t : State} (h : exec (.truncsfhf2 a) s = .next t) :
    ∃ b sh, readTables s (tableKey (singleOperand a)) = some (b, sh) ∧
      t.rsp = some (.ok (halfResult (narrowWith b sh (singleOperand a)))) := by
  obtain ⟨b, sh, hread⟩ := read_of_exec_truncsfhf2 h
  exact ⟨b, sh, hread, rsp_of_exec (exec_truncsfhf2_of_read hread) h⟩

/-! ### The status -/

/-- A status has a result value with it exactly when it is OK (R63, R64). -/
theorem result_isSome_iff (r : Response) : r.result.isSome = true ↔ r.status = 0#2 := by
  cases r <;> simp [Response.result, Response.status]

theorem status_ne_three (r : Response) : r.status ≠ 3#2 := by
  cases r <;> simp [Response.status]

/-- The status that the spec gives a request (R160). -/
theorem specResponse_status (q : Request) : (specResponse q).status =
    if q.op.toNat = 3 ∨ q.op.toNat = 4 then 1#2 else if 9 ≤ q.op.toNat then 2#2 else 0#2 := by
  by_cases hop : q.op.toNat ≤ 8
  · obtain ⟨i, -, rfl⟩ := decodeRequest_of_not_reserved hop
    cases i <;> rfl
  · rw [specResponse_of_reserved (by omega), if_neg (by omega), if_pos (by omega)]
    rfl

/-- An operation's status is the one the spec gives its request, whatever the tables hold. -/
theorem exec_status {i : Instr} {s t : State} (h : exec i s = .next t) :
    ∃ r, t.rsp = some r ∧ r.status = (specResponse i.request).status := by
  by_cases htrunc : ∃ a, i = .truncsfhf2 a
  · obtain ⟨a, rfl⟩ := htrunc
    obtain ⟨b, sh, -, hrsp⟩ := rsp_of_exec_truncsfhf2 h
    exact ⟨_, hrsp, rfl⟩
  · exact ⟨_, rsp_of_exec (exec_of_ne_truncsfhf2 (fun a ha => htrunc ⟨a, ha⟩) s) h, rfl⟩

/-- The status of a response is the one the spec gives its request, whatever the tables hold. -/
theorem runRequest_status {q : Request} {s t : State} (h : runRequest q s = .next t) :
    ∃ r, t.rsp = some r ∧ r.status = (specResponse q).status := by
  cases hd : decodeRequest q with
  | ok i =>
    rw [runRequest_of_decode hd] at h
    rw [← request_of_decodeRequest hd]
    exact exec_status h
  | error e =>
    obtain ⟨op⟩ := e
    simp only [runRequest, hd] at h
    cases h
    exact ⟨_, rfl, by rw [specResponse_of_reserved (reserved_of_decodeRequest hd).2]; rfl⟩

/-- Settles O21: the status is the spec's, and the spec's follows from the op code. -/
theorem statusFollowsFromOpCode : Obligations.StatusFollowsFromOpCode := by
  intro q s t h
  obtain ⟨r, hrsp, hstatus⟩ := runRequest_status h
  exact ⟨r, hrsp, hstatus.trans (specResponse_status q), status_ne_three r, result_isSome_iff r⟩

/-! ### Operand and result slices -/

/-- Settles O26: the operand slice is all that the meaning of an operation takes. -/
theorem operandBitsAboveSliceAreIgnored : Obligations.OperandBitsAboveSliceAreIgnored := by
  intro a b s
  refine ⟨fun hslice t u ht hu => ?_, fun hslice t u ht hu => ?_, fun hslice t u ht hu => ?_, fun t u ht hu => ?_,
    fun t u ht hu => ?_⟩
  · have hab : halfOperand a = halfOperand b := hslice
    rw [rsp_of_exec rfl ht, rsp_of_exec rfl hu, hab]
  · have hab : singleOperand a = singleOperand b := hslice
    rw [rsp_of_exec rfl ht, rsp_of_exec rfl hu, hab]
  · have hab : singleOperand a = singleOperand b := hslice
    obtain ⟨base, shift, hread, htr⟩ := rsp_of_exec_truncsfhf2 ht
    rw [hab] at hread htr
    rw [htr, rsp_of_exec (exec_truncsfhf2_of_read hread) hu]
  · rw [rsp_of_exec rfl ht, rsp_of_exec rfl hu]
  · rw [rsp_of_exec rfl ht, rsp_of_exec rfl hu]

theorem singleResult_lt (f : Single) : (singleResult f).toNat < 2 ^ 32 := by
  rw [singleResult, BitVec.toNat_setWidth_of_le (by decide)]
  exact f.isLt

theorem halfResult_lt (h : Half) : (halfResult h).toNat < 2 ^ 16 := by
  rw [halfResult, BitVec.toNat_setWidth_of_le (by decide)]
  exact h.isLt

/-- An operation with a binary32 result leaves the upper half of `rsp_r` at 0 (R63). -/
theorem result_lt_of_single {i : Instr} {f : Single} {s t : State} {r : ResultWord} (hr : t.rsp = some (.ok r))
    (hexec : exec i s = .next (deliver i.request (.ok (singleResult f)) s)) (h : exec i s = .next t) : r.toNat < 2 ^ 32 := by
  rw [rsp_of_exec hexec h] at hr
  cases hr
  exact singleResult_lt f

/-- Settles O27: the results are 32-bit and 16-bit patterns, zero-extended. -/
theorem resultBitsAboveSliceAreZero : Obligations.ResultBitsAboveSliceAreZero := by
  intro a s t r hr
  refine ⟨result_lt_of_single hr rfl, fun h => ?_, result_lt_of_single hr rfl, result_lt_of_single hr rfl⟩
  obtain ⟨b, sh, -, hrsp⟩ := rsp_of_exec_truncsfhf2 h
  rw [hrsp] at hr
  cases hr
  exact halfResult_lt _

end Sys2Proof.Machine
end

section
/-! PROOFS. The requester's use of earlier results (O15). -/

namespace Sys2Proof.Machine

/-- The line on the port (R183). -/
theorem offer_of_program {s : State} {l : HostLine} {ls : List HostLine} (h : s.program = l :: ls) :
    offer s = offerLine s.delivered l := by
  simp only [offer, h]

/-- Responses are counted from 1 (R70). -/
theorem responseNo_succ (d : List (Request × Response)) (k : Nat) : responseNo d (k + 1) = (d[k]?).map Prod.snd := rfl

/-- `@k` before response k has arrived (R186). -/
theorem offerLine_of_missing {d : List (Request × Response)} {l : HostLine} {k : Nat} (hl : l.operand = .result (k + 1))
    (h : d.length ≤ k) : offerLine d l = .nothing := by
  simp only [offerLine, hl, responseNo_succ, List.getElem?_eq_none h, Option.map_none]

/-- `@k` with the result of response k (R70). -/
theorem offerLine_of_result {d : List (Request × Response)} {l : HostLine} {k : Nat} {q : Request} {r : ResultWord}
    (hl : l.operand = .result (k + 1)) (h : d[k]? = some (q, .ok r)) :
    offerLine d l = .request { op := l.opCode, a := resultAsOperand r } := by
  simp only [offerLine, hl, responseNo_succ, h, Option.map_some]

/-- `@k` where response k has no result (spec/93_implementation_defined.md U2). -/
theorem offerLine_of_no_result {d : List (Request × Response)} {l : HostLine} {k : Nat} {q : Request} {r : Response}
    (hl : l.operand = .result (k + 1)) (h : d[k]? = some (q, r)) (hr : r.result = none) :
    offerLine d l = .noValue (k + 1) := by
  simp only [offerLine, hl, responseNo_succ, h, Option.map_some]
  cases r with
  | ok v => cases hr
  | unsupported => rfl
  | illegalOp => rfl

/-- Settles O15: the line on the port, by what has become of response k. -/
theorem hostForwardsResultsItHasReceived : Obligations.HostForwardsResultsItHasReceived := by
  intro s rest l ls k hs hp hl
  rw [step_of_turn hs, beginStep_of_slot hs, offer_of_program hp]
  refine ⟨fun hk => ?_, fun q r hk => offerLine_of_result hl hk, fun q r hk hr => ?_⟩
  · have hnothing := offerLine_of_missing hl hk
    exact ⟨hnothing, acceptTurn_of_nothing ((offer_of_program hp).trans hnothing)⟩
  · exact acceptTurn_of_noValue ((offer_of_program hp).trans (offerLine_of_no_result hl hk hr))

end Sys2Proof.Machine
end

section
/-! PROOFS. Widening between any two formats that are wide enough: the fields of the widened pattern, and what it keeps. -/

namespace Sys2Proof.Machine

/-! ### Leading bits, mantissa bits and normal magnitudes -/

theorem bitlen_eq_of_bounds {x p : Nat} (hlo : 2 ^ p ≤ x) (hhi : x < 2 ^ (p + 1)) : bitlen x = p + 1 := by
  have h1 := (bitlen_le_iff x (p + 1)).mpr hhi
  have h2 := (bitlen_le_iff x p).not.mpr (not_lt.mpr hlo)
  omega

theorem testBit_mantOf {f : Format} (hf : Proper f) {i : Nat} (hi : i < f.M) (w : Nat) :
    (mantOf f w).testBit i = w.testBit i := by
  rw [mantOf_eq hf, Nat.testBit_mod_two_pow, decide_eq_true hi, Bool.true_and]

/-- A normal magnitude whose mantissa, the implicit bit included, is N moved up by k bits. -/
theorem magnitude_of_shifted {f : Format} {w N k : Nat} (h0 : expOf f w ≠ 0) (hN : 2 ^ f.M + mantOf f w = N * 2 ^ k) :
    magnitude f w = N * (2 : ℚ) ^ ((k : ℤ) + (expOf f w - f.B - f.M)) := by
  rw [magnitude_of_normal h0, hN, Nat.cast_mul, mul_assoc, Nat.cast_pow, Nat.cast_ofNat, two_pow_mul_zpow]

/-! ### Formats that widen -/

/-- `dst` has a normal pattern for the value of every finite pattern of `src` but the zeros, and room for its mantissa. -/
structure Widens (src dst : Format) : Prop where
  src_proper : Proper src
  dst_proper : Proper dst
  mantissa : src.M ≤ dst.M
  /-- the smallest subnormal of `src` is a normal value of `dst` -/
  smallest : src.M + src.B ≤ dst.B
  /-- the largest finite exponent of `src` is one of `dst` -/
  largest : 2 ^ src.E + dst.B ≤ 2 ^ dst.E + src.B

theorem half_widens : Widens .half .single := ⟨half_proper, single_proper, by decide, by decide, by decide⟩
theorem single_widens : Widens .single .double := ⟨single_proper, double_proper, by decide, by decide, by decide⟩

/-! ### The fields of the widened pattern -/

/-- The exponent field and the mantissa of the widened pattern, by the class of the source (R82 to R86). `k` is what the change of
the bias, and of the position of the leading 1, adds to the exponent field. -/
inductive WidenedFields (src dst : Format) (v : Nat) : Nat → Nat → Prop where
  | zero (he : expOf src v = 0) (hm : mantOf src v = 0) : WidenedFields src dst v 0 0
  | subnormal (p k : Nat) (hk : k + (src.M + src.B) = dst.B + 1) (he : expOf src v = 0) (hlo : 2 ^ p ≤ mantOf src v)
      (hhi : mantOf src v < 2 ^ (p + 1)) :
      WidenedFields src dst v (p + k) ((mantOf src v - 2 ^ p) * 2 ^ (dst.M - p))
  | normal (k : Nat) (hk : k + src.B = dst.B) (h0 : expOf src v ≠ 0) (h1 : expOf src v ≠ 2 ^ src.E - 1) :
      WidenedFields src dst v (expOf src v + k) (mantOf src v * 2 ^ (dst.M - src.M))
  | special (h1 : expOf src v = 2 ^ src.E - 1) :
      WidenedFields src dst v (2 ^ dst.E - 1) (mantOf src v * 2 ^ (dst.M - src.M))

section
variable {src dst : Format} (hw : Widens src dst) {v e m : Nat}
include hw

/-- The leading 1 of a subnormal's mantissa stands inside the mantissa field. -/
theorem Widens.leading_lt {p : Nat} (hlo : 2 ^ p ≤ mantOf src v) : p < src.M :=
  (Nat.pow_lt_pow_iff_right (by norm_num)).mp (hlo.trans_lt (mantOf_lt hw.src_proper v))

theorem Widens.two_le_pow : 2 ≤ 2 ^ src.E := by
  simpa using Nat.pow_le_pow_right (n := 2) (by norm_num) hw.src_proper.1

theorem Widens.mantissa_lt : mantOf src v * 2 ^ (dst.M - src.M) < 2 ^ dst.M := by
  rw [← Nat.sub_add_cancel hw.mantissa, Nat.add_sub_cancel, pow_add, mul_comm]
  exact Nat.mul_lt_mul_of_pos_left (mantOf_lt hw.src_proper v) (by positivity)

/-- Every pattern is in one of the classes. -/
theorem Widens.exists_fields (v : Nat) : ∃ e m, WidenedFields src dst v e m := by
  have hsmall := hw.smallest
  by_cases h1 : expOf src v = 2 ^ src.E - 1
  · exact ⟨_, _, .special h1⟩
  by_cases h0 : expOf src v = 0
  · by_cases hm : mantOf src v = 0
    · exact ⟨_, _, .zero h0 hm⟩
    · have hlen := Nat.sub_add_cancel (bitlen_pos hm)
      exact ⟨_, _, .subnormal _ (dst.B + 1 - (src.M + src.B)) (Nat.sub_add_cancel (by omega)) h0
        (two_pow_bitlen_sub_one_le hm) (by rw [hlen]; exact lt_two_pow_bitlen _)⟩
  · exact ⟨_, _, .normal (dst.B - src.B) (Nat.sub_add_cancel (by omega)) h0 h1⟩

/-- Only an infinity or a NaN gets the exponent field of all ones, and the mantissa fits. -/
theorem WidenedFields.bounds (h : WidenedFields src dst v e m) :
    e < 2 ^ dst.E ∧ m < 2 ^ dst.M ∧ (isFinite src v → e ≠ 2 ^ dst.E - 1) := by
  have hpow := hw.two_le_pow
  have hlarge := hw.largest
  have hsmall := hw.smallest
  have he := expOf_lt hw.src_proper v
  cases h with
  | zero => exact ⟨by positivity, by positivity, fun _ => by omega⟩
  | subnormal p k hk _ hlo hhi =>
    have hp := hw.leading_lt hlo
    have hM := hw.mantissa
    refine ⟨by omega, ?_, fun _ => by omega⟩
    calc (mantOf src v - 2 ^ p) * 2 ^ (dst.M - p)
        < 2 ^ p * 2 ^ (dst.M - p) := Nat.mul_lt_mul_of_pos_right (by rw [pow_succ] at hhi; omega) (by positivity)
      _ = 2 ^ dst.M := by rw [← pow_add, Nat.add_sub_cancel' (by omega)]
  | normal k hk h0 h1 => exact ⟨by omega, hw.mantissa_lt, fun _ => by omega⟩
  | special h1 => exact ⟨by omega, hw.mantissa_lt, fun hfin => absurd h1 hfin⟩

/-- Widening composes the source's sign with these fields. -/
theorem WidenedFields.widen_eq (h : WidenedFields src dst v e m) :
    widen src dst v = compose dst (signOf src v) e m := by
  have hsmall := hw.smallest
  obtain ⟨he, -, -⟩ := h.bounds hw
  cases h with
  | zero h0 hm => exact widen_zero h0 hm
  | subnormal p k hk h0 hlo hhi =>
    have hp := hw.leading_lt hlo
    have hM := hw.mantissa
    have hm : mantOf src v ≠ 0 := (lt_of_lt_of_le (by positivity) hlo).ne'
    have hlen : bitlen (mantOf src v) - 1 = p := by rw [bitlen_eq_of_bounds hlo hhi, Nat.add_sub_cancel]
    have hexp : p + 1 + dst.B - (src.M + src.B) = p + k := by omega
    have hsub := widen_subnormal (dst := dst) h0 hm (by rw [hlen, hexp]; exact he) (by omega)
    rwa [hlen, hexp] at hsub
  | normal k hk h0 h1 =>
    have hexp : expOf src v + dst.B - src.B = expOf src v + k := by omega
    rw [← hexp] at he ⊢
    exact widen_normal hw.src_proper h0 h1 he hw.mantissa
  | special h1 => exact widen_special hw.src_proper h1 hw.mantissa

theorem WidenedFields.expOf_widen (h : WidenedFields src dst v e m) : expOf dst (widen src dst v) = e := by
  obtain ⟨he, hm, -⟩ := h.bounds hw
  rw [h.widen_eq hw, expOf_compose hw.dst_proper he hm]

theorem WidenedFields.mantOf_widen (h : WidenedFields src dst v e m) : mantOf dst (widen src dst v) = m := by
  obtain ⟨-, hm, -⟩ := h.bounds hw
  rw [h.widen_eq hw, mantOf_compose hw.dst_proper hm]

/-! ### What every pattern keeps -/

theorem widen_lt (v : Nat) : widen src dst v < 2 ^ fmtWidth dst := by
  obtain ⟨e, m, h⟩ := hw.exists_fields v
  obtain ⟨he, hm, -⟩ := h.bounds hw
  rw [h.widen_eq hw]
  exact compose_lt (signOf_lt src v) he hm

theorem signOf_widen (v : Nat) : signOf dst (widen src dst v) = signOf src v := by
  obtain ⟨e, m, h⟩ := hw.exists_fields v
  obtain ⟨he, hm, -⟩ := h.bounds hw
  rw [h.widen_eq hw, signOf_compose (signOf_lt src v) he hm]

theorem isFinite_widen (hfin : isFinite src v) : isFinite dst (widen src dst v) := by
  obtain ⟨e, m, h⟩ := hw.exists_fields v
  obtain ⟨-, -, hne⟩ := h.bounds hw
  rw [isFinite, h.expOf_widen hw]
  exact hne hfin

/-! ### Values -/

/-- The moved mantissa and the new bias cancel (R87). -/
theorem magnitude_widen (hfin : isFinite src v) : magnitude dst (widen src dst v) = magnitude src v := by
  have hsmall := hw.smallest
  obtain ⟨e, m, h⟩ := hw.exists_fields v
  have hexp := h.expOf_widen hw
  have hmant := h.mantOf_widen hw
  cases h with
  | zero he hm => rw [magnitude_of_subnormal hexp, magnitude_of_subnormal he, hmant, hm, Nat.cast_zero, zero_mul, zero_mul]
  | subnormal p k hk h0 hlo hhi =>
    have hp := hw.leading_lt hlo
    have hM := hw.mantissa
    have hN : 2 ^ dst.M + mantOf dst (widen src dst v) = mantOf src v * 2 ^ (dst.M - p) := by
      rw [hmant, ← Nat.add_sub_cancel' (hp.le.trans hM), Nat.add_sub_cancel_left, pow_add, ← Nat.add_mul,
        Nat.add_sub_cancel' hlo]
    rw [magnitude_of_shifted (by omega) hN, magnitude_of_subnormal h0, leastUnit]
    congr 2
    omega
  | normal k hk h0 h1 =>
    have hM := hw.mantissa
    have hN : 2 ^ dst.M + mantOf dst (widen src dst v) = (2 ^ src.M + mantOf src v) * 2 ^ (dst.M - src.M) := by
      rw [hmant, Nat.add_mul, ← pow_add, Nat.add_sub_cancel' hM]
    rw [magnitude_of_shifted (by omega) hN, magnitude_of_normal h0]
    congr 2
    omega
  | special h1 => exact absurd h1 hfin

theorem value_widen (hfin : isFinite src v) : value dst (widen src dst v) = value src v := by
  rw [value, value, signOf_widen hw, magnitude_widen hw hfin]

/-! ### Infinities and NaNs -/

theorem isInfinity_widen (h : isInfinity src v) : isInfinity dst (widen src dst v) := by
  obtain ⟨h1, hm⟩ := h
  have hspecial : WidenedFields src dst v _ _ := .special h1
  exact ⟨hspecial.expOf_widen hw, by rw [hspecial.mantOf_widen hw, hm, zero_mul]⟩

theorem mantOf_widen_of_isNaN (h : isNaN src v) :
    mantOf dst (widen src dst v) = mantOf src v * 2 ^ (dst.M - src.M) :=
  (WidenedFields.special h.1).mantOf_widen hw

theorem isNaN_widen (h : isNaN src v) : isNaN dst (widen src dst v) := by
  refine ⟨(WidenedFields.special h.1).expOf_widen hw, ?_⟩
  rw [mantOf_widen_of_isNaN hw h]
  exact Nat.mul_ne_zero h.2 (by positivity)

/-- The quiet bit of a NaN is the source's (R86). -/
theorem quietBit_widen (h : isNaN src v) :
    (widen src dst v).testBit (dst.M - 1) = v.testBit (src.M - 1) := by
  have hM := hw.mantissa
  have hs := hw.src_proper.2
  have hplace : dst.M - 1 - (dst.M - src.M) = src.M - 1 := by omega
  rw [← testBit_mantOf hw.dst_proper (by omega), mantOf_widen_of_isNaN hw h, mul_comm, Nat.testBit_two_pow_mul,
    decide_eq_true (by omega), Bool.true_and, hplace, testBit_mantOf hw.src_proper (by omega)]

end

end Sys2Proof.Machine
end

section
/-! PROOFS. The two widening operations, and narrowing after widening (O28 to O31, O39). -/

namespace Sys2Proof.Machine

/-! ### The two widths -/

theorem widenHalf_toNat (h : Half) : (widenHalf h).toNat = widen .half .single h.toNat :=
  Nat.mod_eq_of_lt (widen_lt half_widens h.toNat)

theorem widenSingle_toNat (f : Single) : (widenSingle f).toNat = widen .single .double f.toNat :=
  Nat.mod_eq_of_lt (widen_lt single_widens f.toNat)

theorem widenHalf_of_fields {h : Half} {e m : Nat} (hw : WidenedFields .half .single h.toNat e m) :
    (widenHalf h).toNat = signOf .half h.toNat * 2 ^ 31 + e * 2 ^ 23 + m :=
  (widenHalf_toNat h).trans (hw.widen_eq half_widens)

theorem widenSingle_of_fields {f : Single} {e m : Nat} (hw : WidenedFields .single .double f.toNat e m) :
    (widenSingle f).toNat = signOf .single f.toNat * 2 ^ 63 + e * 2 ^ 52 + m :=
  (widenSingle_toNat f).trans (hw.widen_eq single_widens)

/-! ### The result by case -/

theorem halfOperand_toNat (a : OperandWord) : (halfOperand a).toNat = a.toNat % 2 ^ 16 := by
  simp [halfOperand]

/-- The fields of a binary16 pattern, as R88 writes them. -/
theorem half_fields (h : Half) :
    h.toNat / 2 ^ 15 = signOf .half h.toNat ∧ h.toNat / 2 ^ 10 % 2 ^ 5 = expOf .half h.toNat ∧
      h.toNat % 2 ^ 10 = mantOf .half h.toNat := by
  have hlt := h.isLt
  refine ⟨?_, (expOf_eq half_proper _).symm, (mantOf_eq half_proper _).symm⟩
  rw [signOf_eq]
  simp only [Format.half]
  omega

/-- Settles O28, by the class of the binary16 operand. -/
theorem extendhfsfResultByCase : Obligations.ExtendhfsfResultByCase := by
  intro a s
  refine ⟨widenHalf (halfOperand a), rfl, ?_⟩
  rw [← halfOperand_toNat]
  generalize halfOperand a = h
  obtain ⟨hs, he, hm⟩ := half_fields h
  dsimp only
  rw [hs, he, hm]
  refine ⟨fun h0 hz => ?_,
    fun h0 p hlo hhi => widenHalf_of_fields (.subnormal p 103 rfl h0 hlo hhi),
    fun h0 h1 => widenHalf_of_fields (.normal 112 rfl h0.ne' h1.ne), fun h1 hz => ?_,
    fun h1 _ => widenHalf_of_fields (.special h1)⟩
  · rw [widenHalf_of_fields (.zero h0 hz), zero_mul, add_zero, add_zero]
  · rw [widenHalf_of_fields (.special h1), hz, zero_mul, add_zero]
    rfl

/-- Settles O29, by the class of the binary32 operand. -/
theorem extendsfdfResultByCase : Obligations.ExtendsfdfResultByCase := by
  intro a s
  refine ⟨widenSingle (singleOperand a), rfl, ?_⟩
  rw [← singleOperand_toNat]
  generalize singleOperand a = f
  obtain ⟨hs, he, hm⟩ := single_fields f
  dsimp only
  rw [hs, he, hm]
  refine ⟨fun h0 hz => ?_,
    fun h0 p hlo hhi => widenSingle_of_fields (.subnormal p 874 rfl h0 hlo hhi),
    fun h0 h1 => widenSingle_of_fields (.normal 896 rfl h0.ne' h1.ne), fun h1 hz => ?_,
    fun h1 _ => widenSingle_of_fields (.special h1)⟩
  · rw [widenSingle_of_fields (.zero h0 hz), zero_mul, add_zero, add_zero]
  · rw [widenSingle_of_fields (.special h1), hz, zero_mul, add_zero]
    rfl

/-! ### What widening keeps -/

/-- Settles O30: both operations keep what every widening of a finite pattern keeps. -/
theorem wideningKeepsValueAndSign : Obligations.WideningKeepsValueAndSign := by
  refine ⟨fun h hfin => ?_, fun f hfin => ?_⟩
  · rw [widenHalf_toNat]
    exact ⟨isFinite_widen half_widens hfin, value_widen half_widens hfin, signOf_widen half_widens _⟩
  · rw [widenSingle_toNat]
    exact ⟨isFinite_widen single_widens hfin, value_widen single_widens hfin, signOf_widen single_widens _⟩

/-- Settles O31: both operations keep what every widening of an infinity or a NaN keeps. -/
theorem wideningKeepsInfinitiesAndNaNs : Obligations.WideningKeepsInfinitiesAndNaNs := by
  refine ⟨fun h => ?_, fun f => ?_⟩
  · rw [BitVec.getLsbD, widenHalf_toNat]
    exact ⟨fun hi => ⟨isInfinity_widen half_widens hi, signOf_widen half_widens _⟩,
      fun hn => ⟨isNaN_widen half_widens hn, signOf_widen half_widens _, mantOf_widen_of_isNaN half_widens hn,
        quietBit_widen half_widens hn⟩⟩
  · rw [BitVec.getLsbD, widenSingle_toNat]
    exact ⟨fun hi => ⟨isInfinity_widen single_widens hi, signOf_widen single_widens _⟩,
      fun hn => ⟨isNaN_widen single_widens hn, signOf_widen single_widens _, mantOf_widen_of_isNaN single_widens hn,
        quietBit_widen single_widens hn⟩⟩

/-! ### Narrowing after widening -/

theorem roundUp_zero_dropped (kept : Nat) {unit : Nat} (h : 0 < unit) : roundUp kept 0 unit = 0 := by
  rw [roundUp, if_neg (by omega)]

/-- Where the dropped bits are 0 nothing is rounded. -/
theorem roundShift_mul_two_pow {k : Nat} (hk : 0 < k) (N : Nat) : roundShift k (N * 2 ^ k) = N := by
  rw [roundShift_eq_roundUp hk, Nat.mul_mod_left, roundUp_zero_dropped _ (by positivity), add_zero,
    Nat.mul_div_cancel _ (by positivity)]

/-- The mantissa bits that widening appended are the ones that narrowing drops, by the class of the pattern. -/
theorem narrowSingle_widenHalf (h : Half) : narrowSingle (widenHalf h) = h := by
  have hs := signOf_lt .half h.toNat
  have hm : mantOf .half h.toNat < 2 ^ 10 := mantOf_lt half_proper _
  have hfields : signOf .half h.toNat * 2 ^ 15 + expOf .half h.toNat * 2 ^ 10 + mantOf .half h.toNat = h.toNat :=
    compose_fields half_proper h.isLt
  have hsign := signOf_widen half_widens h.toNat
  obtain ⟨e, m, hw⟩ := half_widens.exists_fields h.toNat
  have he := hw.expOf_widen half_widens
  have hmant := hw.mantOf_widen half_widens
  rw [← widenHalf_toNat] at hsign he hmant
  apply BitVec.eq_of_toNat_eq
  rw [← hfields]
  cases hw with
  | zero h0 hz => rw [narrowSingle_of_tiny (by omega), hsign, h0, hz]; rfl
  | subnormal p k hk h0 hlo hhi =>
    have hp : p < 10 := half_widens.leading_lt hlo
    obtain rfl : k = 103 := Nat.add_right_cancel hk
    change _ = _ * 2 ^ (23 - p) at hmant
    rw [narrowSingle_of_subnormal he hmant (by omega) (by omega), hsign, h0, Nat.add_sub_cancel,
      show 126 - (p + 103) = 23 - p by omega, Nat.mul_mod_left, Nat.mul_div_cancel _ (by positivity),
      roundUp_zero_dropped _ (by positivity), Nat.add_sub_cancel' hlo, zero_mul, add_zero, add_zero]
  | normal k hk h0 h1 =>
    have hlt : expOf .half h.toNat < 2 ^ 5 := expOf_lt half_proper _
    change _ ≠ 2 ^ 5 - 1 at h1
    obtain rfl : k = 112 := Nat.add_right_cancel hk
    change _ = _ * 2 ^ 13 at hmant
    rw [narrowSingle_of_normal he hmant (by omega) (by omega), hsign, Nat.add_sub_cancel, Nat.mul_mod_left,
      Nat.mul_div_cancel _ (by norm_num), roundUp_zero_dropped _ (by norm_num), add_zero, add_assoc]
  | special h1 =>
    change _ = 31 at h1
    change _ = _ * 2 ^ 13 at hmant
    rw [narrowSingle_of_special he, hsign, hmant, roundShift_mul_two_pow (by norm_num), h1]
    omega

/-- Settles O39: widening only appends zeros below the mantissa, so narrowing rounds nothing. -/
theorem halfRoundTripsThroughSingle : Obligations.HalfRoundTripsThroughSingle := narrowSingle_widenHalf

end Sys2Proof.Machine
end

section
/-! PROOFS. The table algorithm of truncsfhf2 on whatever entries its key selects (O33). -/

namespace Sys2Proof.Machine

/-- A read finds the values of the two entries at its key (R50). -/
theorem readTables_of_entries {s : State} {i : TableKey} {b : BaseWord} {sh : ShiftWord}
    (hb : s.base[i.toNat]? = some (some b)) (hsh : s.shift[i.toNat]? = some (some sh)) : readTables s i = some (b, sh) := by
  obtain ⟨_, hb⟩ := Vector.getElem?_eq_some_iff.mp hb
  obtain ⟨_, hsh⟩ := Vector.getElem?_eq_some_iff.mp hsh
  simp only [readTables, hb, hsh]

/-- The key of an operand is its bits 31 to 23, whatever stands above them. -/
theorem tableKey_singleOperand_toNat (a : OperandWord) : (tableKey (singleOperand a)).toNat = a.toNat / 2 ^ 23 % 512 := by
  rw [tableKey_singleOperand, BitVec.extractLsb'_toNat, Nat.shiftRight_eq_div_pow]

/-- The mantissa of an operand is its bits 22 to 0, whatever stands above them. -/
theorem singleOperand_mantissa (a : OperandWord) : (singleOperand a).toNat % 2 ^ 23 = a.toNat % 2 ^ 23 := by
  rw [singleOperand_toNat, Nat.mod_mod_of_dvd _ (pow_dvd_pow 2 (by norm_num))]

/-- Settles O33: the entries read are those at the key, and the algorithm on them is R100 in arithmetic. -/
theorem truncsfhfFollowsItsTableEntries : Obligations.TruncsfhfFollowsItsTableEntries := by
  intro a s b sh hb hsh _
  rw [← tableKey_singleOperand_toNat] at hb hsh
  refine ⟨narrowWith b sh (singleOperand a), exec_truncsfhf2_of_read (readTables_of_entries hb hsh), ?_⟩
  rw [narrowWith_toNat, singleOperand_mantissa]

end Sys2Proof.Machine
end

section
/-! PROOFS. The integer engine's pattern as a sign and a magnitude's sum `d + y`, for any format, and what its fields can be
(O44 to O47). -/

namespace Sys2Proof.Machine

/-! ### The pattern of an integer -/

/-- The sum d + y that the engine forms for a magnitude x (R137, R138), and 0 for 0 (R131). -/
def magnitudePattern (f : Format) (x : Nat) : Nat :=
  if x = 0 then 0 else (bitlen x - 1 + f.B) * 2 ^ f.M + roundedMantissa f.M x

/-- The pattern that the engine gives the integer v: its sign and the two fields of its magnitude's sum. -/
def integerPattern (f : Format) (v : ℤ) : Nat :=
  compose f (if v < 0 then 1 else 0) (magnitudePattern f v.natAbs / 2 ^ f.M) (magnitudePattern f v.natAbs % 2 ^ f.M)

@[simp] theorem magnitudePattern_zero (f : Format) : magnitudePattern f 0 = 0 := if_pos rfl

theorem magnitudePattern_of_ne_zero {f : Format} {x : Nat} (hx : x ≠ 0) :
    magnitudePattern f x = (bitlen x - 1 + f.B) * 2 ^ f.M + roundedMantissa f.M x := if_neg hx

@[simp] theorem integerPattern_zero (f : Format) : integerPattern f 0 = 0 := by simp [integerPattern, compose]

/-- As a number: the sign stands above the magnitude's sum. -/
theorem integerPattern_eq_add (f : Format) (v : ℤ) :
    integerPattern f v = (if v < 0 then 1 else 0) * 2 ^ (f.E + f.M) + magnitudePattern f v.natAbs := by
  rw [integerPattern, compose, add_assoc, Nat.div_add_mod']

/-- A natural number has the sign 0. -/
theorem integerPattern_natCast (f : Format) (x : Nat) : integerPattern f x = magnitudePattern f x := by
  simp [integerPattern_eq_add]

theorem mantOf_integerPattern {f : Format} (hf : Proper f) (v : ℤ) :
    mantOf f (integerPattern f v) = magnitudePattern f v.natAbs % 2 ^ f.M :=
  mantOf_compose hf (Nat.mod_lt _ (by positivity))

@[simp] theorem integerValue_zero (signed : Bool) : integerValue signed 0#128 = 0 := by cases signed <;> rfl

/-- An integer of n bits reaches at most the exponent field of 2^n, with mantissa 0. -/
theorem magnitudePattern_le {f : Format} (hM : 0 < f.M) {x n : Nat} (hn : n ≤ 128) (hx : x < 2 ^ n) :
    magnitudePattern f x ≤ (n + f.B) * 2 ^ f.M := by
  by_cases h0 : x = 0
  · simp [h0]
  · have hlen := (bitlen_le_iff x n).mpr hx
    have hpos := bitlen_pos h0
    have hy := roundedMantissa_le hM h0 (hx.trans_le (Nat.pow_le_pow_right (by norm_num) hn))
    calc magnitudePattern f x ≤ (bitlen x - 1 + f.B) * 2 ^ f.M + 2 ^ f.M := by
          rw [magnitudePattern_of_ne_zero h0]; omega
      _ = (bitlen x - 1 + f.B + 1) * 2 ^ f.M := by ring
      _ ≤ (n + f.B) * 2 ^ f.M := Nat.mul_le_mul_right _ (by omega)

/-- A magnitude that is not 0 gives a normal exponent field. -/
theorem two_pow_le_magnitudePattern {f : Format} (hB : 0 < f.B) {x : Nat} (hx : x ≠ 0) : 2 ^ f.M ≤ magnitudePattern f x := by
  rw [magnitudePattern_of_ne_zero hx]
  exact (Nat.le_mul_of_pos_left _ (by omega)).trans (Nat.le_add_right _ _)

section
variable {f : Format} (hf : Proper f) (h127 : 127 ≤ f.B) (hB : Biased f)
include hf h127 hB

/-- No sum exceeds the exponent and mantissa fields of the infinity (R138). -/
theorem magnitudePattern_le_infinity {x : Nat} (hx : x < 2 ^ 128) : magnitudePattern f x ≤ (2 ^ f.E - 1) * 2 ^ f.M :=
  (magnitudePattern_le hf.2 le_rfl hx).trans (Nat.mul_le_mul_right _ (by have := two_pow_E_eq hf.1 hB; omega))

theorem magnitudePattern_exponent_lt {x : Nat} (hx : x < 2 ^ 128) : magnitudePattern f x / 2 ^ f.M < 2 ^ f.E := by
  have hle := Nat.div_le_of_le_mul (mul_comm _ (2 ^ f.M) ▸ magnitudePattern_le_infinity hf h127 hB hx)
  have := Nat.two_pow_pos f.E
  omega

/-- The engine (R130), by the integer that its operand stands for. -/
theorem intToFloat_eq_integerPattern (signed : Bool) (X : BitVec 128) :
    intToFloat signed f.M f.B (f.E + f.M + 1) X = integerPattern f (integerValue signed X) := by
  by_cases hX : X = 0#128
  · rw [hX, integerValue_zero, integerPattern_zero, intToFloat, if_pos rfl]
  · have hne := Int.natAbs_ne_zero.mpr (integerValue_ne_zero (signed := signed) hX)
    have he := magnitudePattern_exponent_lt hf h127 hB (integerValue_natAbs_lt signed X)
    rw [intToFloat_of_ne_zero f hX, signMagnitude_eq, integerPattern,
      ← or_sign_eq_compose he (Nat.mod_lt _ (by positivity)), Nat.div_add_mod', magnitudePattern_of_ne_zero hne,
      Nat.shiftLeft_eq (_ + f.B)]

variable {v : ℤ} (hv : v.natAbs < 2 ^ 128)
include hv

theorem integerPattern_lt : integerPattern f v < 2 ^ fmtWidth f :=
  compose_lt (by split <;> norm_num) (magnitudePattern_exponent_lt hf h127 hB hv) (Nat.mod_lt _ (by positivity))

theorem signOf_integerPattern : signOf f (integerPattern f v) = if v < 0 then 1 else 0 :=
  signOf_compose (by split <;> norm_num) (magnitudePattern_exponent_lt hf h127 hB hv) (Nat.mod_lt _ (by positivity))

theorem expOf_integerPattern : expOf f (integerPattern f v) = magnitudePattern f v.natAbs / 2 ^ f.M :=
  expOf_compose hf (magnitudePattern_exponent_lt hf h127 hB hv) (Nat.mod_lt _ (by positivity))

/-- Below the sign stands the magnitude's sum. -/
theorem integerPattern_mod : integerPattern f v % 2 ^ (f.E + f.M) = magnitudePattern f v.natAbs := by
  have hlt := compose_low_lt (magnitudePattern_exponent_lt hf h127 hB hv)
    (Nat.mod_lt (magnitudePattern f v.natAbs) (Nat.two_pow_pos f.M))
  rw [Nat.div_add_mod'] at hlt
  rw [integerPattern_eq_add, Nat.mul_add_mod_self_right, Nat.mod_eq_of_lt hlt]

/-- All ones in the exponent field come with mantissa 0 (R139). -/
theorem not_isNaN_integerPattern : ¬ isNaN f (integerPattern f v) := by
  rintro ⟨hexp, hmant⟩
  have hle := magnitudePattern_le_infinity hf h127 hB hv
  have hdiv := Nat.div_add_mod' (magnitudePattern f v.natAbs) (2 ^ f.M)
  rw [expOf_integerPattern hf h127 hB hv] at hexp
  rw [mantOf_integerPattern hf] at hmant
  rw [hexp] at hdiv
  omega

/-- Exponent field 0 comes with mantissa 0: only zero has it (R139). -/
theorem mantOf_integerPattern_of_expOf_eq_zero (hexp : expOf f (integerPattern f v) = 0) :
    mantOf f (integerPattern f v) = 0 := by
  rw [expOf_integerPattern hf h127 hB hv, Nat.div_eq_zero_iff_lt (by positivity)] at hexp
  have hx : v.natAbs = 0 := by
    by_contra hx
    exact absurd (two_pow_le_magnitudePattern (by omega) hx) (not_le.mpr hexp)
  rw [mantOf_integerPattern hf, hx, magnitudePattern_zero, Nat.zero_mod]

end

/-! ### The engine at binary32 and at binary64 -/

theorem intToSingle_toNat (signed : Bool) (X : BitVec 128) :
    (intToSingle signed X).toNat = integerPattern .single (integerValue signed X) := by
  have hlt := integerPattern_lt single_proper (by decide) (by decide) (integerValue_natAbs_lt signed X)
  rw [← intToFloat_eq_integerPattern single_proper (by decide) (by decide)] at hlt ⊢
  exact Nat.mod_eq_of_lt hlt

theorem intToDouble_toNat (signed : Bool) (X : BitVec 128) :
    (intToDouble signed X).toNat = integerPattern .double (integerValue signed X) := by
  have hlt := integerPattern_lt double_proper (by decide) (by decide) (integerValue_natAbs_lt signed X)
  rw [← intToFloat_eq_integerPattern double_proper (by decide) (by decide)] at hlt ⊢
  exact Nat.mod_eq_of_lt hlt

theorem intToSingle_unsigned_toNat (X : BitVec 128) : (intToSingle false X).toNat = magnitudePattern .single X.toNat :=
  (intToSingle_toNat false X).trans (integerPattern_natCast _ _)

theorem intToDouble_unsigned_toNat (X : BitVec 128) : (intToDouble false X).toNat = magnitudePattern .double X.toNat :=
  (intToDouble_toNat false X).trans (integerPattern_natCast _ _)

end Sys2Proof.Machine
end

section
/-! PROOFS. The integer conversions: zero (O44), short integers (O45), the rounding carry (O46) and the range (O47). -/

namespace Sys2Proof.Machine

/-! ### Zero and short integers -/

/-- Settles O44: the engine answers the pattern 0 for the operand 0 before it looks at a sign. -/
theorem integerZeroGivesPositiveZero : Obligations.IntegerZeroGivesPositiveZero := fun _ => ⟨rfl, rfl, rfl, rfl⟩

/-- The magnitude of the engine's pattern: M + 1 significant bits, in units of the binade of the integer. -/
theorem magnitude_integerPattern {f : Format} (hf : Proper f) (h127 : 127 ≤ f.B) (hB : Biased f) {v : ℤ}
    (hv : v.natAbs < 2 ^ 128) (hne : v ≠ 0) :
    magnitude f (integerPattern f v) =
      (2 ^ f.M + roundedMantissa f.M v.natAbs : ℕ) * (2 : ℚ) ^ ((bitlen v.natAbs : ℤ) - 1 - f.M) := by
  have hx := Int.natAbs_ne_zero.mpr hne
  have hpos := bitlen_pos hx
  have hexp := magnitudePattern_exponent_lt hf h127 hB hv
  have hy := roundedMantissa_le hf.2 hx hv
  -- the sum is q = 2^M + y steps from the exponent field below its own
  obtain ⟨j, hj⟩ : ∃ j, bitlen v.natAbs - 1 + f.B = j + 1 := ⟨_, (Nat.sub_add_cancel (by omega)).symm⟩
  have hsum : magnitudePattern f v.natAbs = (2 ^ f.M + roundedMantissa f.M v.natAbs) + j * 2 ^ f.M := by
    rw [magnitudePattern_of_ne_zero hx, hj]; ring
  rw [hsum, Nat.add_mul_div_right _ _ (by positivity), add_comm] at hexp
  rw [integerPattern, hsum, Nat.add_mul_div_right _ _ (by positivity), Nat.add_mul_mod_self_right, add_comm (_ / _),
    magnitude_of_steps hf (by rw [pow_succ]; omega) (.inr (Nat.le_add_right _ _)) hexp, leastUnit, two_pow_mul_zpow]
  congr 2
  omega

/-- The exact case (R134): an integer of at most M + 1 bits keeps its value. -/
theorem value_integerPattern_of_short {f : Format} (hf : Proper f) (h127 : 127 ≤ f.B) (hB : Biased f) {v : ℤ}
    (hv : v.natAbs < 2 ^ 128) (hshort : v.natAbs < 2 ^ (f.M + 1)) : value f (integerPattern f v) = v := by
  have hmag : magnitude f (integerPattern f v) = |(v : ℚ)| := by
    by_cases hne : v = 0
    · subst hne
      rw [integerPattern_zero, magnitude_of_subnormal (by rw [expOf_eq hf]; simp), mantOf_eq hf]
      simp
    · have hx := Int.natAbs_ne_zero.mpr hne
      have hlen := (bitlen_le_iff _ _).mpr hshort
      rw [magnitude_integerPattern hf h127 hB hv hne, roundedMantissa_exact hx hlen, Nat.cast_mul, Nat.cast_pow,
        Nat.cast_ofNat, mul_assoc, two_pow_mul_zpow, ← Int.cast_abs, ← Nat.cast_natAbs]
      rw [show ((f.M + 1 - bitlen v.natAbs : ℕ) : ℤ) + ((bitlen v.natAbs : ℤ) - 1 - f.M) = 0 by omega, zpow_zero, mul_one]
  have hsign := signOf_integerPattern hf h127 hB hv
  split at hsign
  case isTrue hneg => rw [value_of_sign_one hsign, hmag, abs_of_neg (Int.cast_lt_zero.mpr hneg), neg_neg]
  case isFalse hneg => rw [value_of_sign_zero hsign, hmag, abs_of_nonneg (Int.cast_nonneg (not_lt.mp hneg))]

theorem value_intToSingle_of_short {signed : Bool} {X : BitVec 128} (h : (integerValue signed X).natAbs < 2 ^ 24) :
    value .single (intToSingle signed X).toNat = integerValue signed X := by
  rw [intToSingle_toNat]
  exact value_integerPattern_of_short single_proper (by decide) (by decide) (integerValue_natAbs_lt signed X) h

theorem value_intToDouble_of_short {signed : Bool} {X : BitVec 128} (h : (integerValue signed X).natAbs < 2 ^ 53) :
    value .double (intToDouble signed X).toNat = integerValue signed X := by
  rw [intToDouble_toNat]
  exact value_integerPattern_of_short double_proper (by decide) (by decide) (integerValue_natAbs_lt signed X) h

/-- Settles O45: both engines are exact on integers of at most M + 1 bits, signed and unsigned. -/
theorem shortIntegersConvertExactly : Obligations.ShortIntegersConvertExactly := fun _ =>
  ⟨value_intToSingle_of_short (signed := false), value_intToDouble_of_short (signed := false),
    value_intToSingle_of_short (signed := true), value_intToDouble_of_short (signed := true)⟩

/-! ### The rounding carry -/

/-- Where the top M + 2 bits are all 1 the mantissa rounds up to 2^M (R135): 2^(M+1) - 1 steps would be at least half a step
short, and an odd number. -/
theorem roundedMantissa_of_leading_ones {M n x : Nat} (hM : 0 < M) (hlen : bitlen x = n) (hn : M + 2 ≤ n) (hx : x < 2 ^ 128)
    (hones : 2 ^ n - 2 ^ (n - (M + 2)) ≤ x) : roundedMantissa M x = 2 ^ M := by
  obtain ⟨k, rfl⟩ := Nat.exists_eq_add_of_le hn
  obtain ⟨-, hnear, hle, heven⟩ := roundedMantissa_nearest hM hx (by omega)
  rw [hlen, show M + 2 + k - M - 1 = k + 1 by omega] at hnear heven
  rw [Nat.add_sub_cancel_left, show M + 2 + k = M + 1 + (k + 1) by omega, pow_add] at hones
  have hpar : 2 ^ (M + 1) % 2 = 0 := Nat.mod_eq_zero_of_dvd (dvd_pow_self 2 (by omega))
  have hunit : 2 ^ (k + 1) = 2 * 2 ^ k := pow_succ' 2 k
  have hpos := Nat.two_pow_pos k
  have hcarry : 2 ^ M + roundedMantissa M x = 2 ^ (M + 1) := by
    generalize 2 ^ M + roundedMantissa M x = q at *
    generalize 2 ^ (M + 1) = Q at *
    by_contra hne
    obtain hQ | hQ : q + 2 ≤ Q ∨ Q = q + 1 := by omega
    · -- two steps short of 2^(M+1) are more than half a step short of x
      have hstep := Nat.mul_le_mul_right (2 ^ (k + 1)) hQ
      rw [Nat.add_mul] at hstep
      omega
    · -- one step short is a tie, and q is odd
      rw [hQ, Nat.add_mul, one_mul] at hones
      have hq := heven (.inr (by omega))
      omega
  rw [pow_succ] at hcarry
  omega

/-- An integer of n bits whose top M + 2 bits are all 1 has the sum of 2^n: the carry of R138. -/
theorem magnitudePattern_of_leading_ones {f : Format} (hM : 0 < f.M) {n x : Nat} (hn : f.M + 2 ≤ n) (h128 : n ≤ 128)
    (hx : x < 2 ^ n) (hones : 2 ^ n - 2 ^ (n - (f.M + 2)) ≤ x) : magnitudePattern f x = (n + f.B) * 2 ^ f.M := by
  have hlen : bitlen x = n := by
    obtain ⟨p, rfl⟩ := Nat.exists_eq_add_of_le' (Nat.le_of_add_left_le hn : 1 ≤ n)
    have : 2 ^ (p + 1 - (f.M + 2)) ≤ 2 ^ p := Nat.pow_le_pow_right (by norm_num) (by omega)
    exact bitlen_eq_of_bounds (by rw [pow_succ] at hones; omega) hx
  have hx128 := hx.trans_le (Nat.pow_le_pow_right (by norm_num) h128)
  rw [magnitudePattern_of_ne_zero (by rintro rfl; simp at hlen; omega), hlen,
    roundedMantissa_of_leading_ones hM hlen hn hx128 hones, show n + f.B = n - 1 + f.B + 1 by omega]
  ring

/-- Settles O46: the carry of an all-ones mantissa reaches the exponent field. -/
theorem leadingOnesCarryIntoTheExponent : Obligations.LeadingOnesCarryIntoTheExponent := by
  intro X n hX h128
  rw [intToSingle_unsigned_toNat, intToDouble_unsigned_toNat]
  exact ⟨fun hn => magnitudePattern_of_leading_ones single_proper.2 hn h128 hX,
    fun hn => magnitudePattern_of_leading_ones double_proper.2 hn h128 hX⟩

/-! ### The range -/

theorem single_overflowBound : overflowBound .single = 2 ^ 128 - 2 ^ 103 := by norm_num [overflowBound, Format.single]

theorem intToSingle_unsigned_of_overflow {X : BitVec 128} (h : 2 ^ 128 - 2 ^ 103 ≤ X.toNat) :
    intToSingle false X = 0x7F800000#32 := by
  apply BitVec.eq_of_toNat_eq
  rw [intToSingle_unsigned_toNat, magnitudePattern_of_leading_ones single_proper.2 (n := 128) (by decide) le_rfl X.isLt h]
  rfl

/-- Rounding to binary32 gives an infinity exactly from the midpoint above the largest finite pattern on. -/
theorem isInfinity_intToSingle_unsigned_iff (X : BitVec 128) :
    isInfinity .single (intToSingle false X).toNat ↔ 2 ^ 128 - 2 ^ 103 ≤ X.toNat := by
  obtain ⟨-, hnear, -⟩ := intToSingle_correctlyRounded false X
  constructor
  · rintro ⟨hexp, -⟩
    by_contra hlt
    refine (hnear ?_).1 hexp
    have hX : (X.toNat : ℚ) + 2 ^ 103 < 2 ^ 128 := by exact_mod_cast (by omega : X.toNat + 2 ^ 103 < 2 ^ 128)
    rw [single_overflowBound, integerValue, if_neg (by decide), Int.cast_natCast, abs_of_nonneg (Nat.cast_nonneg _)]
    linarith
  · intro h
    rw [intToSingle_unsigned_of_overflow h]
    exact ⟨by decide, by decide⟩

theorem intToSingle_toNat_mod (signed : Bool) (X : BitVec 128) :
    (intToSingle signed X).toNat % 2 ^ 31 = magnitudePattern .single (integerValue signed X).natAbs := by
  rw [intToSingle_toNat]
  exact integerPattern_mod single_proper (by decide) (by decide) (integerValue_natAbs_lt signed X)

theorem intToDouble_toNat_mod (signed : Bool) (X : BitVec 128) :
    (intToDouble signed X).toNat % 2 ^ 63 = magnitudePattern .double (integerValue signed X).natAbs := by
  rw [intToDouble_toNat]
  exact integerPattern_mod double_proper (by decide) (by decide) (integerValue_natAbs_lt signed X)

/-- Every 128-bit magnitude stays at or below 2^128 in binary64. -/
theorem magnitudePattern_double_le {x : Nat} (hx : x < 2 ^ 128) : magnitudePattern .double x ≤ 0x47F0000000000000 :=
  (magnitudePattern_le double_proper.2 le_rfl hx).trans (by decide)

/-- A signed magnitude is at most 2^127, which has its own pattern; 127 bits round to that one at most. -/
theorem intToSingle_signed_mod_le (X : BitVec 128) : (intToSingle true X).toNat % 2 ^ 31 ≤ 0x7F000000 := by
  have hX : X.toInt.natAbs ≤ 2 ^ 127 := by
    have := BitVec.toInt_lt (x := X)
    have := BitVec.le_toInt X
    omega
  rw [intToSingle_toNat_mod]
  rcases hX.lt_or_eq with h | h
  · exact magnitudePattern_le (n := 127) single_proper.2 (by norm_num) h
  · rw [integerValue, if_pos rfl, h]; decide +kernel

/-- Settles O47: the infinities by correct rounding, the other bounds by the length of the magnitude, the classes by the fields of
the sum. -/
theorem integerResultRange : Obligations.IntegerResultRange := by
  intro X
  refine ⟨isInfinity_intToSingle_unsigned_iff X, intToSingle_unsigned_of_overflow, by decide +kernel,
    intToSingle_signed_mod_le X, by decide +kernel, ?_, ?_, by decide +kernel, fun sg => ?_⟩
  · rw [intToDouble_unsigned_toNat]
    exact magnitudePattern_double_le X.isLt
  · rw [intToDouble_toNat_mod]
    exact magnitudePattern_double_le (integerValue_natAbs_lt true X)
  · have hv := integerValue_natAbs_lt sg X
    rw [intToSingle_toNat, intToDouble_toNat]
    exact ⟨not_isNaN_integerPattern single_proper (by decide) (by decide) hv,
      not_isNaN_integerPattern double_proper (by decide) (by decide) hv,
      mantOf_integerPattern_of_expOf_eq_zero single_proper (by decide) (by decide) hv,
      mantOf_integerPattern_of_expOf_eq_zero double_proper (by decide) (by decide) hv⟩

end Sys2Proof.Machine
end

section
/-! PROOFS. The two error responses: ILLEGAL_OP and UNSUPPORTED (O19, O20). -/

namespace Sys2Proof.Machine

/-- A reserved op code is answered with ILLEGAL_OP in every state: the tables are not read (R162). -/
theorem runRequest_of_reserved {q : Request} (h : 9 ≤ q.op.toNat) (s : State) :
    runRequest q s = .next (answered q.op q.a .illegalOp s) := by
  simp only [runRequest, decodeRequest_of_reserved h, takeError, Cause.response, deliver_eq_answered]

/-- Settles O19: a response step runs the head of INFLIGHT, and a reserved op code does not decode. -/
theorem reservedOpCodesAnswerIllegalOp : Obligations.ReservedOpCodesAnswerIllegalOp := by
  refine ⟨fun s rest q qs hs hi hop => ?_, rfl, rfl⟩
  rw [step_of_respond hs hi, runRequest_of_reserved hop]

/-- Status 1 is the status of UNSUPPORTED and of no other response (R160). -/
theorem status_eq_one_iff (r : Response) : r.status = 1#2 ↔ r = .unsupported := by
  cases r <;> simp [Response.status]

/-- The status that the spec gives a request is 1 for truncdfhf2 and truncdfsf2 only (R161). -/
theorem specResponse_status_eq_one_iff (q : Request) :
    (specResponse q).status = 1#2 ↔ q.op = 0x3#4 ∨ q.op = 0x4#4 := by
  have hop : (q.op = 0x3#4 ∨ q.op = 0x4#4) ↔ (q.op.toNat = 3 ∨ q.op.toNat = 4) := by
    rw [← BitVec.toNat_inj, ← BitVec.toNat_inj]
    rfl
  rw [specResponse_status, hop]
  split_ifs with hnarrow
  · exact iff_of_true rfl hnarrow
  · exact iff_of_false (by decide) hnarrow
  · exact iff_of_false (by decide) hnarrow

/-- Settles O20: the two narrowings read no state, and the status on the port is the one the spec gives the op code. -/
theorem unsupportedNarrowingsAlwaysFail : Obligations.UnsupportedNarrowingsAlwaysFail := by
  refine ⟨fun a s => ⟨?_, ?_⟩, fun q s t h => ?_, rfl, rfl⟩
  · exact exec_of_ne_truncsfhf2 (i := .truncdfhf2 a) (by simp) s
  · exact exec_of_ne_truncsfhf2 (i := .truncdfsf2 a) (by simp) s
  · obtain ⟨r, hrsp, hstatus⟩ := runRequest_status h
    rw [hrsp, Option.some.injEq, ← status_eq_one_iff, hstatus, specResponse_status_eq_one_iff]

end Sys2Proof.Machine
end

section
/-! PROOFS. Reset, held requests, and the quiescent end of every run (O9, O13, O14, O51, O54). -/

namespace Sys2Proof.Machine

/-! ### Reset -/

/-- No step is enabled while `rst` is 1 (R180). -/
theorem not_enabled_of_rst (s : State) :
    initEnabled true s = false ∧ acceptEnabled true s = false ∧ respondEnabled true s = false :=
  ⟨rfl, rfl, rfl⟩

/-- The conditions of acceptance with `rst` at 0 include `req_ready` (R183). -/
theorem acceptEnabled_of_not_reqReady {s : State} (h : reqReady s = false) : acceptEnabled false s = false := by
  simp only [acceptEnabled, h, Bool.and_false]

/-- After reset only initialisation can follow (R180). -/
theorem enabled_resetUnit (s : State) :
    initEnabled false (resetUnit s) = true ∧ acceptEnabled false (resetUnit s) = false ∧
      respondEnabled false (resetUnit s) = false :=
  ⟨rfl, acceptEnabled_of_not_reqReady (reqReady_of_not_ready rfl), rfl⟩

/-- Settles O9: the step is the reset of the unit, whoever's turn it is. -/
theorem resetStepDiscardsInflight : Obligations.ResetStepDiscardsInflight := by
  intro s tn rest hs
  obtain ⟨hinit, haccept, hrespond⟩ := not_enabled_of_rst s
  exact ⟨_, step_of_rst hs, by rw [beginStep_of_slot hs]; rfl, hinit, haccept, hrespond, enabled_resetUnit _⟩

/-! ### Held requests -/

/-- INFLIGHT without room keeps `req_ready` at 0 (R183). -/
theorem reqReady_of_full {s : State} (h : Config.maxOutstanding ≤ s.inflight.length) : reqReady s = false := by
  simp only [reqReady, decide_eq_false (Nat.not_lt.mpr h), Bool.and_false]

/-- Settles O13: each cause keeps `req_ready` at 0, and then the requester's turn is an empty step. -/
theorem unreadyUnitHoldsRequest : Obligations.UnreadyUnitHoldsRequest := by
  intro s rest q hs ho hcause
  have hready : reqReady s = false := hcause.elim reqReady_of_not_ready reqReady_of_full
  refine ⟨hready, acceptEnabled_of_not_reqReady hready, ?_⟩
  rw [step_of_turn hs, ← beginStep_of_slot hs]
  exact acceptTurn_of_not_ready (s := beginStep s) ho hready

/-- The observation only grows, at its end (R190). -/
theorem step_delivered {s t : State} (h : step s = .next t) : ∃ l, t.delivered = s.delivered ++ l := by
  obtain ⟨-, rfl⟩ | ⟨-, -, -, rfl⟩ | ⟨q, -, -, -, -, rfl⟩ | ⟨q, qs, r, -, -, -, -, rfl⟩ | ⟨-, -, rfl⟩ := step_next h
  · exact ⟨[], (List.append_nil _).symm⟩
  · exact ⟨[], (List.append_nil _).symm⟩
  · exact ⟨[], (List.append_nil _).symm⟩
  · exact ⟨[(q, r)], rfl⟩
  · exact ⟨[], (List.append_nil _).symm⟩

/-- Settles O14, by the cases of a step: only acceptance moves the requester on, and it accepts the request on the port. While the
lines stay, so does the request, since the observation only grows. -/
theorem heldRequestStaysOnPort : Obligations.HeldRequestStaysOnPort := by
  intro s t q ho h
  have hheld : t.program = s.program → t.program = s.program ∧ offer t = .request q :=
    fun hp => ⟨hp, offer_stable hp (step_delivered h) ho⟩
  obtain ⟨-, rfl⟩ | ⟨-, -, -, rfl⟩ | ⟨q', hrst, hturn, ho', hready, rfl⟩ | ⟨q', qs, r, -, -, -, -, rfl⟩ | ⟨-, -, rfl⟩ := step_next h
  · exact .inl (hheld rfl)
  · exact .inl (hheld rfl)
  · rw [ho] at ho'; cases ho'
    exact .inr ⟨hrst, hturn, hready, rfl, rfl⟩
  · exact .inl (hheld rfl)
  · exact .inl (hheld rfl)

/-! ### Quiescence -/

/-- Settles O51: under the invariant a run of literals never stops, and at this length it has nothing left to do. -/
theorem everyRunBecomesQuiescent : Obligations.EveryRunBecomesQuiescent := by
  intro s hinv hlit
  obtain ⟨t, hrun⟩ := hinv.safeRun_of_literal hlit (s.schedule.length + 1 + s.inflight.length + 2 * s.program.length)
  obtain ⟨hs, hready, hi, hp⟩ := answered_of_long_run hlit hrun
  exact ⟨t, hrun, ⟨hready, hi⟩, hp, hs, run_keeps everyStepKeepsTheInvariant hinv hrun⟩

/-- With nothing to initialise or to answer, the fair turn is the requester's (log 4). -/
theorem Quiescent.fairTurn {s : State} (h : Quiescent s) : fairTurn s = .accept := by
  obtain ⟨hready, hi⟩ := h
  simp [Machine.fairTurn, hready, hi]

/-- With no line left `req_valid` is 0. -/
theorem offer_of_nil {s : State} (h : s.program = []) : offer s = .nothing := by
  simp only [offer, h]

/-- Settles O54: the turn is the requester's, who has nothing to present. -/
theorem quiescentUnitStaysQuiescent : Obligations.QuiescentUnitStaysQuiescent := by
  intro s hq hp hs
  rw [step_of_nil hs, hq.fairTurn]
  exact (acceptTurn_of_nothing (s := beginStep s) (offer_of_nil hp)).trans (by simp [beginStep, hs])

end Sys2Proof.Machine
end
